-- ==== Sys2Proof/Word.lean ====
section
/-! DEFINITION. The word types of the core (spec/00_scope.md R5, R6): bytes of 8 bits, words
(register values, addresses, data) of 64 bits, and register identifiers of 4 bits. -/

namespace Sys2Proof

/-- A byte of main memory or of an instruction (R5: byte size 8 bits). -/
abbrev Byte := BitVec 8

/-- A register value, an address or a data word: a 64-bit pattern (R5, R6).
`v.toNat` is the spec's `u(v)`, `v.toInt` its `s(v)`, `v.msb` its `sign(v)`; `+` and `-` are its
`+64` and `−64`. -/
abbrev Word := BitVec 64

/-- A register identifier as an instruction holds it: one nibble, read as a number 0 to 15 (R52). -/
abbrev RegId := BitVec 4

end Sys2Proof
end

