-- ==== Sys2Proof/Config.lean ====
section
/-! DEFINITION. What an implementation fixes and the spec leaves open. The core has no free value:
spec/93_implementation_defined.md says that nothing in it is treated as 'any value'. -/

namespace Sys2Proof.Config

/-- `MEM_SIZE` of the reset state the interface asks for. DESIGN CHOICE (log entry 1): the spec
leaves `MEM_SIZE` OPEN (R5, decision D1). 0x2000 is the example value of
spec/95_test_vectors.md. The capacity of a machine is data in its `Memory`, so every meaning
works for any capacity, and `Machine.resetWith` takes the capacity as an argument (R160). -/
def memSize : Nat := 0x2000

/-- What a byte of main memory that nothing has written reads as: 0 (R26, R38, decision D13; log
entry 2). -/
def unlistedByte : Byte := 0x00

end Sys2Proof.Config
end

