-- ==== Sys2Proof/Machine/State.lean ====
section
/-! DEFINITION. The state of the core, exactly the list of spec/10_state.md R10, as plain data, and
the reset state of R26. -/

namespace Sys2Proof.Machine

/-- The run status `stat` (R21). The statuses have names and no numbers (decision D25). -/
inductive Status where
  /-- `OK`: the last step completed; the core can take another step. -/
  | ok
  /-- `HLT`: a halt instruction was executed. -/
  | hlt
  /-- `ADR`: an instruction referenced memory or program-counter bytes outside main memory. -/
  | adr
  /-- `INS`: the opcode byte was not recognised, or a register field named no register. -/
  | ins
deriving DecidableEq, Repr

/-- The condition codes: three independent booleans (R18). -/
structure CondCodes where
  /-- Zero. -/
  ZF : Bool
  /-- Sign. -/
  SF : Bool
  /-- Overflow. -/
  OF : Bool
deriving DecidableEq, Repr

/-- A Memory Block (R9, R24): a fixed capacity in bytes, `MEM_SIZE`, and the contents. The contents
are listed by address; a byte that is not listed holds `Config.unlistedByte`. -/
structure Memory where
  /-- `MEM_SIZE`, fixed for the life of a run (R24, conflict C2). -/
  size  : Nat
  /-- The listed bytes. -/
  cells : List Host.Cell
deriving DecidableEq, Repr

/-- The canonical form of a memory: a capacity in the range of R5; addresses strictly rising; every
listed byte inside the capacity and different from what an unlisted byte reads as. -/
abbrev Memory.wf (m : Memory) : Prop :=
  (1 ≤ m.size ∧ m.size < 2 ^ 63) ∧
  m.cells.Pairwise (fun p q => p.1 < q.1) ∧
  ∀ c ∈ m.cells, c.1 < m.size ∧ c.2 ≠ Config.unlistedByte

/-- The state of the core (R10). `MAX_STEPS` and the binary image are arguments of a run and of
reset, and are no state (R10); the capacity of main memory is part of its Memory Block (R9, R24). -/
structure State where
  /-- `x[0]` to `x[14]` (R11). -/
  regs  : Vector Word 15
  /-- The program counter (R15). -/
  pc    : Word
  /-- `ZF`, `SF`, `OF` (R18). -/
  cc    : CondCodes
  /-- Main memory (R24). -/
  mem   : Memory
  /-- The run status (R21). -/
  stat  : Status
  /-- The steps taken since reset, the stopping one included (R22). -/
  steps : Nat
deriving DecidableEq, Repr

/-- Why there is no step from a state. Raised by `step` alone, from a state whose status is not
`OK`: stop is final, the step relation has no successor there (R147). SAFE: the spec itself says
that the core takes no further step. Taking the stop (halt, address fault, invalid instruction) is
a next state and no fault of this type (R146). -/
inductive Fault where
  /-- Raised by `step` where `stat = HLT`: the core has executed halt (R143, R147). Safe. -/
  | stoppedByHalt
  /-- Raised by `step` where `stat = ADR`: an address fault has stopped the core (R141, R147).
  Safe. -/
  | stoppedByAddressFault
  /-- Raised by `step` where `stat = INS`: an invalid instruction has stopped the core (R142, R147).
  Safe. -/
  | stoppedByInvalidInstruction
deriving DecidableEq, Repr

/-- Why an instruction has no meaning in the model. -/
inductive Refusal where
  /-- Raised by an arm of `exec` whose instruction is not modelled yet. Safe. No arm raises it: every
  instruction has its meaning. -/
  | notModelled (mnemonic : String)
deriving DecidableEq, Repr

/-- A memory of the given capacity in which nothing has been written. -/
def Memory.blank (size : Nat) : Memory := { size := size, cells := [] }

/-- The machine right after reset (R26), with no image loaded and the capacity `Config.memSize`:
every register 0 (decision D11), `pc = 0` (D10), `ZF SF OF = 1 0 0` (D12), every byte of memory 0
(D13), `stat = OK` (D24), `steps = 0` (D27). `Machine.resetWith` is reset with a capacity and an
image (R160). -/
def State.reset : State where
  regs  := Vector.replicate 15 0
  pc    := 0
  cc    := { ZF := true, SF := false, OF := false }
  mem   := Memory.blank Config.memSize
  stat  := .ok
  steps := 0

end Sys2Proof.Machine
end

