-- ==== Sys2Proof/Syntax.lean ====
section
/-! DEFINITION. The instructions of the core as syntax: one constructor per row of
spec/opcode_table.json, with the operands spec/30_encoding.md R52 and R53 give it. The nibble of
an absent operand slot (R61) is no operand and has no field. -/

namespace Sys2Proof

/-- The sentinel 'no register' (R11: identifier 15 names no register). -/
abbrev RNONE : RegId := 0xF#4

/-- The identifier of the stack pointer `%rsp` (R13). -/
abbrev RSP : RegId := 0x4#4

/-- The seven condition predicates in the order of their sub-functions 0 to 6 (R90). -/
inductive Pred where
  | always | le | l | e | ne | ge | g
deriving DecidableEq, Repr

/-- The four ALU operations in the order of their sub-functions 0 to 3 (R111 to R114). -/
inductive AluOp where
  | add | sub | and | xor
deriving DecidableEq, Repr

/-- The 27 instructions (R55). In every two-register instruction `rA` is the high nibble of the
register byte and `rB` the low one (R52). -/
inductive Instr where
  -- classes 0 and 1 (R82, R83)
  | halt
  | nop
  -- class 2: conditional register moves, source `rA`, destination `rB` (R91 to R97)
  | rrmovq (rA rB : RegId)
  | cmovle (rA rB : RegId)
  | cmovl  (rA rB : RegId)
  | cmove  (rA rB : RegId)
  | cmovne (rA rB : RegId)
  | cmovge (rA rB : RegId)
  | cmovg  (rA rB : RegId)
  -- class 3: load the constant `v` into `rB` (R100)
  | irmovq (rB : RegId) (v : Word)
  -- classes 4 and 5: data register `rA`, base register `rB` or `RNONE`, displacement `d`
  -- (R106, R107)
  | rmmovq (rA rB : RegId) (d : Word)
  | mrmovq (rA rB : RegId) (d : Word)
  -- class 6: source `rA`, destination and second source `rB` (R111 to R114)
  | addq (rA rB : RegId)
  | subq (rA rB : RegId)
  | andq (rA rB : RegId)
  | xorq (rA rB : RegId)
  -- class 7: jumps to the absolute address `dest` (R121 to R127)
  | jmp (dest : Word)
  | jle (dest : Word)
  | jl  (dest : Word)
  | je  (dest : Word)
  | jne (dest : Word)
  | jge (dest : Word)
  | jg  (dest : Word)
  -- classes 8 and 9 (R130, R131)
  | call (dest : Word)
  | ret
  -- classes 0xA and 0xB (R135, R136)
  | pushq (rA : RegId)
  | popq  (rA : RegId)
deriving DecidableEq, Repr

end Sys2Proof
end

