-- ==== Sys2Proof/Machine/Flags.lean ====
section
/-! DEFINITION. The condition predicate of spec/41_register_move.md R90 and the results and flags of
the ALU of spec/44_alu.md. -/

namespace Sys2Proof.Machine

/-- `Cond(fn)` over the condition codes (R90). -/
def condHolds (p : Pred) (c : CondCodes) : Bool :=
  match p with
  | .always => true
  | .le => (c.SF ^^ c.OF) || c.ZF
  | .l => c.SF ^^ c.OF
  | .e => c.ZF
  | .ne => !c.ZF
  | .ge => !(c.SF ^^ c.OF)
  | .g => !(c.SF ^^ c.OF) && !c.ZF

/-- The 64-bit result, with `a = x[rA]` and `b = x[rB]`; `b` is the minuend (R111 to R114). -/
def aluResult (op : AluOp) (a b : Word) : Word :=
  match op with
  | .add => b + a
  | .sub => b - a
  | .and => b &&& a
  | .xor => b ^^^ a

/-- The overflow rule: of an add, the operands share a sign and the result's differs from it; of a
subtract, the operands' signs differ and the result's differs from the minuend's; never of a
bitwise operation (R110 to R114, conflict C1). -/
def aluOverflow (op : AluOp) (a b : Word) : Bool :=
  match op with
  | .add => a.msb == b.msb && (b + a).msb != a.msb
  | .sub => a.msb != b.msb && (b - a).msb != b.msb
  | .and => false
  | .xor => false

/-- The three condition codes every ALU instruction writes (R110). -/
def aluFlags (op : AluOp) (a b : Word) : CondCodes where
  ZF := aluResult op a b == 0
  SF := (aluResult op a b).msb
  OF := aluOverflow op a b

/-- The three codes packed into a 3-bit value for a report: Z bit 2, S bit 1, O bit 0 (R18, decision
D29). No instruction sees it. -/
def CondCodes.pack (c : CondCodes) : BitVec 3 :=
  BitVec.ofBool c.ZF ++ BitVec.ofBool c.SF ++ BitVec.ofBool c.OF

end Sys2Proof.Machine
end

