-- ==== Sys2Proof/Machine/Bytes.lean ====
section
/-! DEFINITION. Byte order and bit fields, used by the decoder, the encoder, memory and the
assembler: little-endian words (spec/20_memory.md R30, spec/30_encoding.md R53) and the two nibbles
of an instruction byte (R51, R52). -/

namespace Sys2Proof.Machine

/-- Byte `k` of a word: bits `8k+7` to `8k` (R30). -/
def byteOf (v : Word) (k : Nat) : Byte := v.extractLsb' (8 * k) 8

/-- The eight bytes of a word, lowest address first (R30, R53). -/
def bytesOf (v : Word) : List Byte :=
  [byteOf v 0, byteOf v 1, byteOf v 2, byteOf v 3, byteOf v 4, byteOf v 5, byteOf v 6, byteOf v 7]

/-- The word of eight bytes given lowest address first: `b7 ++ b6 ++ … ++ b0` (R30, R53). -/
def wordOf (b0 b1 b2 b3 b4 b5 b6 b7 : Byte) : Word :=
  b7 ++ b6 ++ b5 ++ b4 ++ b3 ++ b2 ++ b1 ++ b0

/-- The word in the first eight bytes of a list, or `none` where there are fewer. -/
def wordAtFront : List Byte → Option Word
  | b0 :: b1 :: b2 :: b3 :: b4 :: b5 :: b6 :: b7 :: _ => some (wordOf b0 b1 b2 b3 b4 b5 b6 b7)
  | _ => none

/-- Bits 7:4 of a byte (R6, R51, R52). -/
def highNibble (b : Byte) : BitVec 4 := b.extractLsb' 4 4

/-- Bits 3:0 of a byte (R6, R51, R52). -/
def lowNibble (b : Byte) : BitVec 4 := b.extractLsb' 0 4

/-- The register byte: `rA` in the high nibble, `rB` in the low one (R52, R54). -/
def regByte (rA rB : RegId) : Byte := rA ++ rB

/-- The `n` lowest bytes of a number, least significant first. -/
def bytesOfNat : Nat → Nat → List Byte
  | 0, _ => []
  | n + 1, w => BitVec.ofNat 8 w :: bytesOfNat n (w / 256)

end Sys2Proof.Machine
end

