-- ==== Sys2Proof/WellFormed.lean ====
section
/-! DEFINITION. Which instruction terms are well formed: the register fields that
spec/30_encoding.md R60 requires to name one of the registers 0 to 14 do so. An ill-formed term
still has bytes, and still has a meaning: the invalid-instruction stop of R60. -/

namespace Sys2Proof

/-- The nibble names one of `x[0]` to `x[14]` (R11, R52). -/
def RegId.named (r : RegId) : Bool := r != RNONE

/-- R60, row by row: the fields that must be 0 to 14. The base register of a store or load may be
`RNONE`. -/
def Instr.wf : Instr → Bool
  | .halt => true
  | .nop => true
  | .rrmovq rA rB => RegId.named rA && RegId.named rB
  | .cmovle rA rB => RegId.named rA && RegId.named rB
  | .cmovl rA rB => RegId.named rA && RegId.named rB
  | .cmove rA rB => RegId.named rA && RegId.named rB
  | .cmovne rA rB => RegId.named rA && RegId.named rB
  | .cmovge rA rB => RegId.named rA && RegId.named rB
  | .cmovg rA rB => RegId.named rA && RegId.named rB
  | .irmovq rB _ => RegId.named rB
  | .rmmovq rA _ _ => RegId.named rA
  | .mrmovq rA _ _ => RegId.named rA
  | .addq rA rB => RegId.named rA && RegId.named rB
  | .subq rA rB => RegId.named rA && RegId.named rB
  | .andq rA rB => RegId.named rA && RegId.named rB
  | .xorq rA rB => RegId.named rA && RegId.named rB
  | .jmp _ => true
  | .jle _ => true
  | .jl _ => true
  | .je _ => true
  | .jne _ => true
  | .jge _ => true
  | .jg _ => true
  | .call _ => true
  | .ret => true
  | .pushq rA => RegId.named rA
  | .popq rA => RegId.named rA

end Sys2Proof
end

