-- ==== Sys2Proof/Decode.lean ====
section
/-! DEFINITION. The decoder, total on any bytes, and the encoder, both from the opcode map of
spec/30_encoding.md (R50 to R57). The decoder makes checks 1 to 4 of R57. Check 5, the register
fields of R60, is the first line of every instruction rule's pseudocode (R91, R100, R106, …) and
stands in the meanings; it comes after checks 1 to 4 either way (log entry 4). -/

namespace Sys2Proof

open Sys2Proof.Machine

/-- Why the bytes at `pc` are no instruction, in the order of the checks of R57. -/
inductive DecodeError where
  /-- Check 1, cause ADR-1 of R141: the opcode byte is outside memory. -/
  | opcodeFetch
  /-- Check 2, cause INS-1 of R142: the opcode byte is none of the 27 of R55. -/
  | unrecognisedOpcode
  /-- Check 3, cause ADR-2 of R141: the register byte is outside memory. -/
  | registerByteFetch
  /-- Check 4, cause ADR-3 of R141: the constant is not wholly inside memory. -/
  | constantFetch
deriving DecidableEq, Repr

/-- What an opcode byte selects: an instruction of one of the four formats of R50, waiting for the
operands that its format holds. -/
inductive Shape where
  /-- Format `N`: nothing follows. -/
  | plain (i : Instr)
  /-- Format `R`: a register byte follows. -/
  | regs (f : RegId → RegId → Instr)
  /-- Format `J`: an 8-byte constant follows. -/
  | target (f : Word → Instr)
  /-- Format `I`: a register byte and an 8-byte constant follow. -/
  | regsConst (f : RegId → RegId → Word → Instr)

/-- The opcode map of R55, by the whole opcode byte (R59). A slot that is absent is not examined
(R61). -/
def shapeOf (b0 : Byte) : Option Shape :=
  match b0 with
  | 0x00#8 => some (.plain .halt)
  | 0x10#8 => some (.plain .nop)
  | 0x20#8 => some (.regs .rrmovq)
  | 0x21#8 => some (.regs .cmovle)
  | 0x22#8 => some (.regs .cmovl)
  | 0x23#8 => some (.regs .cmove)
  | 0x24#8 => some (.regs .cmovne)
  | 0x25#8 => some (.regs .cmovge)
  | 0x26#8 => some (.regs .cmovg)
  | 0x30#8 => some (.regsConst fun _ rB v => .irmovq rB v)
  | 0x40#8 => some (.regsConst .rmmovq)
  | 0x50#8 => some (.regsConst .mrmovq)
  | 0x60#8 => some (.regs .addq)
  | 0x61#8 => some (.regs .subq)
  | 0x62#8 => some (.regs .andq)
  | 0x63#8 => some (.regs .xorq)
  | 0x70#8 => some (.target .jmp)
  | 0x71#8 => some (.target .jle)
  | 0x72#8 => some (.target .jl)
  | 0x73#8 => some (.target .je)
  | 0x74#8 => some (.target .jne)
  | 0x75#8 => some (.target .jge)
  | 0x76#8 => some (.target .jg)
  | 0x80#8 => some (.target .call)
  | 0x90#8 => some (.plain .ret)
  | 0xA0#8 => some (.regs fun rA _ => .pushq rA)
  | 0xB0#8 => some (.regs fun rA _ => .popq rA)
  | _ => none

/-- Checks 3 and 4 of R57 for an opcode of the given shape, on the bytes after the opcode byte. -/
def Shape.operands : Shape → List Byte → Except DecodeError Instr
  | .plain i, _ => .ok i
  | .regs _, [] => .error .registerByteFetch
  | .regs f, b1 :: _ => .ok (f (highNibble b1) (lowNibble b1))
  | .target f, bs =>
    match wordAtFront bs with
    | none => .error .constantFetch
    | some c => .ok (f c)
  | .regsConst _, [] => .error .registerByteFetch
  | .regsConst f, b1 :: bs =>
    match wordAtFront bs with
    | none => .error .constantFetch
    | some c => .ok (f (highNibble b1) (lowNibble b1) c)

/-- Checks 1 to 4 of R57 on the bytes that stand at `pc` and lie inside memory. -/
def decode : List Byte → Except DecodeError Instr
  | [] => .error .opcodeFetch
  | b0 :: bs =>
    match shapeOf b0 with
    | none => .error .unrecognisedOpcode
    | some shape => shape.operands bs

/-- The bytes of an instruction, lowest address first (R54, R55), with `x` in the operand slot that
the instruction does not have (the high nibble of `irmovq`'s register byte, the low nibble of
`pushq`'s and `popq`'s; R52, R61). -/
def encodeWith (x : RegId) : Instr → List Byte
  | .halt => [0x00#8]
  | .nop => [0x10#8]
  | .rrmovq rA rB => [0x20#8, regByte rA rB]
  | .cmovle rA rB => [0x21#8, regByte rA rB]
  | .cmovl rA rB => [0x22#8, regByte rA rB]
  | .cmove rA rB => [0x23#8, regByte rA rB]
  | .cmovne rA rB => [0x24#8, regByte rA rB]
  | .cmovge rA rB => [0x25#8, regByte rA rB]
  | .cmovg rA rB => [0x26#8, regByte rA rB]
  | .irmovq rB v => 0x30#8 :: regByte x rB :: bytesOf v
  | .rmmovq rA rB d => 0x40#8 :: regByte rA rB :: bytesOf d
  | .mrmovq rA rB d => 0x50#8 :: regByte rA rB :: bytesOf d
  | .addq rA rB => [0x60#8, regByte rA rB]
  | .subq rA rB => [0x61#8, regByte rA rB]
  | .andq rA rB => [0x62#8, regByte rA rB]
  | .xorq rA rB => [0x63#8, regByte rA rB]
  | .jmp dest => 0x70#8 :: bytesOf dest
  | .jle dest => 0x71#8 :: bytesOf dest
  | .jl dest => 0x72#8 :: bytesOf dest
  | .je dest => 0x73#8 :: bytesOf dest
  | .jne dest => 0x74#8 :: bytesOf dest
  | .jge dest => 0x75#8 :: bytesOf dest
  | .jg dest => 0x76#8 :: bytesOf dest
  | .call dest => 0x80#8 :: bytesOf dest
  | .ret => [0x90#8]
  | .pushq rA => [0xA0#8, regByte rA x]
  | .popq rA => [0xB0#8, regByte rA x]

/-- The bytes the assembler writes for an instruction: `RNONE` in an absent slot (R52, R61, R66). -/
def encode (i : Instr) : List Byte := encodeWith RNONE i

/-- The length in bytes by the class nibble alone (R56); 0 for the classes that do not exist. -/
def lengthOfClass (icode : BitVec 4) : Nat :=
  match icode.toNat with
  | 0 | 1 | 9 => 1
  | 2 | 6 | 10 | 11 => 2
  | 7 | 8 => 9
  | 3 | 4 | 5 => 10
  | _ => 0

/-- The longest instruction, in bytes (R50). -/
def maxLength : Nat := 10

/-- The bytes of an instruction given as one number, as spec/opcode_table.json numbers its bits:
bit 0 is the lowest bit of the first byte. Bits from `nbits` on are zero, up to `maxLength` bytes. -/
def tableBytes (nbits w : Nat) : List Byte := bytesOfNat maxLength (w % 2 ^ nbits)

/-- The instruction the decoder reads from an instruction whose bits are `w`, numbered as
spec/opcode_table.json numbers them. -/
def decodeTableWord (nbits w : Nat) : Option Instr :=
  match decode (tableBytes nbits w) with
  | .ok i => some i
  | .error _ => none

end Sys2Proof
end

