-- ==== Sys2Proof/Machine/Ops.lean ====
section
/-! DEFINITION. The named operations over memory and registers, completing a step, stopping it (the
core's only exceptions) and fetching an instruction. -/

namespace Sys2Proof.Machine

/-- What one step, or one meaning, answers. -/
abbrev Result := Host.Outcome State Fault Refusal

/-! ### Memory (spec/20_memory.md) -/

/-- The byte at an address in a list of cells. -/
def cellAt (k : Nat) : List Host.Cell → Byte
  | [] => Config.unlistedByte
  | c :: cs => if c.1 = k then c.2 else cellAt k cs

/-- A list of cells with byte `b` at address `k`, in canonical form again: the byte an unlisted
address reads as is not listed. -/
def setCell (k : Nat) (b : Byte) : List Host.Cell → List Host.Cell
  | [] => if b = Config.unlistedByte then [] else [(k, b)]
  | c :: cs =>
    if c.1 < k then c :: setCell k b cs
    else if c.1 = k then (if b = Config.unlistedByte then cs else (k, b) :: cs)
    else if b = Config.unlistedByte then c :: cs else (k, b) :: c :: cs

/-- `M[k]`: one byte of main memory (R7, R24). -/
def Memory.byteAt (m : Memory) (k : Nat) : Byte := cellAt k m.cells

/-- `M[k] <- b`. -/
def Memory.setByte (m : Memory) (k : Nat) (b : Byte) : Memory :=
  { m with cells := setCell k b m.cells }

/-- Consecutive bytes written from address `k` on. -/
def Memory.storeBytes (m : Memory) (k : Nat) : List Byte → Memory
  | [] => m
  | b :: bs => (m.setByte k b).storeBytes (k + 1) bs

/-- Consecutive bytes written from address `k` on, less those that would lie outside memory. -/
def Memory.storeInside (m : Memory) (k : Nat) (bs : List Byte) : Memory :=
  m.storeBytes k (bs.take (m.size - k))

/-- `Valid(a, n)`: all `n` bytes at `a` lie inside main memory, in unbounded integers (R34). -/
abbrev Memory.Valid (m : Memory) (a : Word) (n : Nat) : Prop := a.toNat + n ≤ m.size

/-- `MemRead(a, 1)` (R7, R30); `none` where it raises an address fault. -/
def Memory.read1 (m : Memory) (a : Word) : Option Byte :=
  if m.Valid a 1 then some (m.byteAt a.toNat) else none

/-- `MemRead(a, 8)`, little-endian at any alignment (R7, R30, R33); `none` where it raises an address
fault. -/
def Memory.read8 (m : Memory) (a : Word) : Option Word :=
  if m.Valid a 8 then
    some (wordOf (m.byteAt a.toNat) (m.byteAt (a.toNat + 1)) (m.byteAt (a.toNat + 2))
      (m.byteAt (a.toNat + 3)) (m.byteAt (a.toNat + 4)) (m.byteAt (a.toNat + 5))
      (m.byteAt (a.toNat + 6)) (m.byteAt (a.toNat + 7)))
  else none

/-- `MemWrite(a, 8, v)`, little-endian at any alignment (R7, R30, R33); `none`, and nothing written,
where it raises an address fault (R34, R35). -/
def Memory.write8 (m : Memory) (a : Word) (v : Word) : Option Memory :=
  if m.Valid a 8 then some (m.storeBytes a.toNat (bytesOf v)) else none

/-! ### Registers (spec/10_state.md) -/

/-- `x[r]`, or `none` where the identifier names no register (R11, R12). -/
def State.readReg (s : State) (r : RegId) : Option Word :=
  if h : r.toNat < 15 then some (s.regs[r.toNat]'h) else none

/-- `x[r] <- v`. No rule writes with an identifier that names no register (R7); nothing would be
written. -/
def State.writeReg (s : State) (r : RegId) (v : Word) : State :=
  if h : r.toNat < 15 then { s with regs := s.regs.set r.toNat v h } else s

/-- The stack pointer, `x[4]` (R13). -/
def State.rsp (s : State) : Word := s.regs[4]

/-- `x[4] <- v` (R13). -/
def State.setRsp (s : State) (v : Word) : State := s.writeReg RSP v

/-! ### The other fields -/

/-- The condition codes all written (R110). -/
def State.setCodes (s : State) (c : CondCodes) : State := { s with cc := c }

/-- Main memory after a write. -/
def State.setMem (s : State) (m : Memory) : State := { s with mem := m }

/-- `steps <- steps + 1` (R22, R80). -/
def State.tick (s : State) : State := { s with steps := s.steps + 1 }

/-! ### The end of a step (spec/40_step_halt_nop.md R80, spec/60_exceptions.md) -/

/-- The three things a rule can raise (R7). -/
inductive Cause where
  | halt
  | addressFault
  | invalidInstruction
deriving DecidableEq, Repr

/-- The status a raise leaves (R7, R80, R140). -/
def Cause.status : Cause → Status
  | .halt => .hlt
  | .addressFault => .adr
  | .invalidInstruction => .ins

/-- The state a stopping step leaves: `stat` has changed and nothing else (R146). -/
def State.stopped (s : State) (c : Cause) : State := { s with stat := c.status }

/-- The state a completing step leaves: the `pc` has its new value and `stat` is `OK` (R80). -/
def State.completed (s : State) (pc : Word) : State := { s with pc := pc, stat := .ok }

/-- Taking an exception, the one way a step stops: `stat` records the cause and nothing else changes:
no register, no byte of memory, no condition code and not the `pc` (R80, R144, R146). There is no
handler, vector or saved register, and no return (R147, R148). -/
def raise (c : Cause) (s : State) : Result := .next (s.stopped c)

/-- A step completes: the `pc` takes its new value and `stat` is `OK` (R15, R16, R80). -/
def complete (pc : Word) (s : State) : Result := .next (s.completed pc)

/-! ### Fetch (spec/30_encoding.md R57) -/

/-- The bytes from address `a` on that lie inside memory, at most `n` of them. Reading a byte has no
effect (R37), and the fetch does not wrap to address 0 (R17, R58). -/
def Memory.bytesFrom (m : Memory) (a : Word) : Nat → List Byte
  | 0 => []
  | n + 1 =>
    match m.read1 a with
    | none => []
    | some b => b :: m.bytesFrom (a + 1) n

/-- Checks 1 to 4 of R57 at `pc`. -/
def fetchDecode (s : State) : Except DecodeError Instr := decode (s.mem.bytesFrom s.pc maxLength)

/-- What a failed check of R57 raises (R57, R141, R142). -/
def causeOf : DecodeError → Cause
  | .opcodeFetch => .addressFault
  | .unrecognisedOpcode => .invalidInstruction
  | .registerByteFetch => .addressFault
  | .constantFetch => .addressFault

/-- The fault of a step that is asked of a stopped core (R147); `none` where the core can step. -/
def stoppedFault : Status → Option Fault
  | .ok => none
  | .hlt => some .stoppedByHalt
  | .adr => some .stoppedByAddressFault
  | .ins => some .stoppedByInvalidInstruction

end Sys2Proof.Machine
end

