-- ==== Sys2Proof/Machine/Operands.lean ====
section
/-! DEFINITION. The operand forms: a register field that must name a register (spec/30_encoding.md
R60), the effective address (spec/43_store_load.md R105), and the data accesses that raise an
address fault (spec/20_memory.md R34, R35). -/

namespace Sys2Proof.Machine

/-- A register field that must be 0 to 14: its value goes to the rest of the rule; 15 raises an
invalid instruction (R60). -/
def withReg (r : RegId) (s : State) (k : Word → Result) : Result :=
  match s.readReg r with
  | some v => k v
  | none => raise .invalidInstruction s

/-- The base of an address: 0 for `RNONE`, else `x[rB]` (R105). -/
def baseValue (rB : RegId) (s : State) : Word :=
  match s.readReg rB with
  | some v => v
  | none => 0

/-- `EA = base +64 D` (R36, R105). -/
def effectiveAddress (rB : RegId) (d : Word) (s : State) : Word := baseValue rB s + d

/-- The data read of a rule: the 8 bytes at `a` go to the rest of the rule; an access not wholly
inside memory raises an address fault (R34, R35). -/
def withRead8 (a : Word) (s : State) (k : Word → Result) : Result :=
  match s.mem.read8 a with
  | some v => k v
  | none => raise .addressFault s

/-- The data write of a rule: the rest of the rule goes on with `v` stored at `a`; an access not wholly
inside memory raises an address fault and writes nothing (R34, R35). -/
def withWrite8 (a v : Word) (s : State) (k : State → Result) : Result :=
  match s.mem.write8 a v with
  | some m => k (s.setMem m)
  | none => raise .addressFault s

end Sys2Proof.Machine
end

