-- ==== Sys2Proof/Machine/Alu.lean ====
section
/-! DEFINITION. Class 6: the ALU operations (spec/44_alu.md). -/

namespace Sys2Proof.Machine

/-- What the four ALU instructions share (R110, R116): both sources are read before the destination
`rB` is written; all three condition codes are written. -/
def aluStep (op : AluOp) (rA rB : RegId) (s : State) : Result :=
  withReg rA s fun a =>
  withReg rB s fun b =>
  complete (s.pc + 2) ((s.setCodes (aluFlags op a b)).writeReg rB (aluResult op a b))

/-- `addq rA, rB` (R111). -/
def execAddq (rA rB : RegId) (s : State) : Result := aluStep .add rA rB s

/-- `subq rA, rB` (R112). -/
def execSubq (rA rB : RegId) (s : State) : Result := aluStep .sub rA rB s

/-- `andq rA, rB` (R113). -/
def execAndq (rA rB : RegId) (s : State) : Result := aluStep .and rA rB s

/-- `xorq rA, rB` (R114). -/
def execXorq (rA rB : RegId) (s : State) : Result := aluStep .xor rA rB s

end Sys2Proof.Machine
end

