-- ==== Sys2Proof/Machine/HaltNop.lean ====
section
/-! DEFINITION. Classes 0 and 1: halt and nop (spec/40_step_halt_nop.md). -/

namespace Sys2Proof.Machine

/-- `halt` (R82): raise Halt; the `pc` stays at the halt (decision D7). -/
def execHalt (s : State) : Result := raise .halt s

/-- `nop` (R83). -/
def execNop (s : State) : Result := complete (s.pc + 1) s

end Sys2Proof.Machine
end

