-- ==== Sys2Proof/Machine/Jump.lean ====
section
/-! DEFINITION. Class 7: the jumps (spec/45_jump.md). -/

namespace Sys2Proof.Machine

/-- What the seven jumps share (R120): the absolute target, unchecked, where the predicate holds, else
`pc + 9`. -/
def jumpIf (p : Pred) (dest : Word) (s : State) : Result :=
  complete (if condHolds p s.cc then dest else s.pc + 9) s

/-- `jmp Dest` (R121). -/
def execJmp (dest : Word) (s : State) : Result := jumpIf .always dest s

/-- `jle Dest` (R122). -/
def execJle (dest : Word) (s : State) : Result := jumpIf .le dest s

/-- `jl Dest` (R123). -/
def execJl (dest : Word) (s : State) : Result := jumpIf .l dest s

/-- `je Dest` (R124). -/
def execJe (dest : Word) (s : State) : Result := jumpIf .e dest s

/-- `jne Dest` (R125). -/
def execJne (dest : Word) (s : State) : Result := jumpIf .ne dest s

/-- `jge Dest` (R126). -/
def execJge (dest : Word) (s : State) : Result := jumpIf .ge dest s

/-- `jg Dest` (R127). -/
def execJg (dest : Word) (s : State) : Result := jumpIf .g dest s

end Sys2Proof.Machine
end

