-- ==== Sys2Proof/Machine/LoadStore.lean ====
section
/-! DEFINITION. Classes 3, 4 and 5: load-immediate (spec/42_load_immediate.md), store and load
(spec/43_store_load.md). -/

namespace Sys2Proof.Machine

/-- `irmovq $V, rB` (R100). -/
def execIrmovq (rB : RegId) (v : Word) (s : State) : Result :=
  withReg rB s fun _ =>
  complete (s.pc + 10) (s.writeReg rB v)

/-- `rmmovq rA, D(rB)` (R106). -/
def execRmmovq (rA rB : RegId) (d : Word) (s : State) : Result :=
  withReg rA s fun a =>
  withWrite8 (effectiveAddress rB d s) a s fun s' =>
  complete (s.pc + 10) s'

/-- `mrmovq D(rB), rA` (R107). -/
def execMrmovq (rA rB : RegId) (d : Word) (s : State) : Result :=
  withReg rA s fun _ =>
  withRead8 (effectiveAddress rB d s) s fun v =>
  complete (s.pc + 10) (s.writeReg rA v)

end Sys2Proof.Machine
end

