-- ==== Sys2Proof/Machine/Move.lean ====
section
/-! DEFINITION. Class 2: the conditional register moves (spec/41_register_move.md). -/

namespace Sys2Proof.Machine

/-- What the seven moves share (R98): both register fields are checked whether or not the predicate
holds; `x[rB] <- x[rA]` only where it holds; `pc` advances by 2 either way. -/
def moveIf (p : Pred) (rA rB : RegId) (s : State) : Result :=
  withReg rA s fun a =>
  withReg rB s fun _ =>
  complete (s.pc + 2) (if condHolds p s.cc then s.writeReg rB a else s)

/-- `rrmovq rA, rB` (R91). -/
def execRrmovq (rA rB : RegId) (s : State) : Result := moveIf .always rA rB s

/-- `cmovle rA, rB` (R92). -/
def execCmovle (rA rB : RegId) (s : State) : Result := moveIf .le rA rB s

/-- `cmovl rA, rB` (R93). -/
def execCmovl (rA rB : RegId) (s : State) : Result := moveIf .l rA rB s

/-- `cmove rA, rB` (R94). -/
def execCmove (rA rB : RegId) (s : State) : Result := moveIf .e rA rB s

/-- `cmovne rA, rB` (R95). -/
def execCmovne (rA rB : RegId) (s : State) : Result := moveIf .ne rA rB s

/-- `cmovge rA, rB` (R96). -/
def execCmovge (rA rB : RegId) (s : State) : Result := moveIf .ge rA rB s

/-- `cmovg rA, rB` (R97). -/
def execCmovg (rA rB : RegId) (s : State) : Result := moveIf .g rA rB s

end Sys2Proof.Machine
end

