-- ==== Sys2Proof/Machine/Stack.lean ====
section
/-! DEFINITION. Classes 8 to 0xB, the instructions on the stack: call and return
(spec/46_call_return.md), push and pop (spec/47_push_pop.md). The stack pointer changes only after
the access has been checked (R35, conflict C5). -/

namespace Sys2Proof.Machine

/-- `call Dest` (R130): the return address `pc + 9` goes to `x[4] − 8`. -/
def execCall (dest : Word) (s : State) : Result :=
  withWrite8 (s.rsp - 8) (s.pc + 9) s fun s' =>
  complete dest (s'.setRsp (s.rsp - 8))

/-- `ret` (R131). -/
def execRet (s : State) : Result :=
  withRead8 s.rsp s fun t =>
  complete t (s.setRsp (s.rsp + 8))

/-- `pushq rA` (R135): the value `x[rA]` had before the stack pointer changes (decision D22). -/
def execPushq (rA : RegId) (s : State) : Result :=
  withReg rA s fun v =>
  withWrite8 (s.rsp - 8) v s fun s' =>
  complete (s.pc + 2) (s'.setRsp (s.rsp - 8))

/-- `popq rA` (R136): the loaded value is written first, and the stack pointer is read again for the
increment, so that `popq %rsp` leaves the loaded value + 8 (decision D23). -/
def execPopq (rA : RegId) (s : State) : Result :=
  withReg rA s fun _ =>
  withRead8 s.rsp s fun v =>
  complete (s.pc + 2) ((s.writeReg rA v).setRsp ((s.writeReg rA v).rsp + 8))

end Sys2Proof.Machine
end

