-- ==== Sys2Proof/Machine/Step.lean ====
section
/-! DEFINITION. The step of spec/40_step_halt_nop.md R80, and an instruction placed where it fetches. -/

namespace Sys2Proof.Machine

/-- One step (R80): from `stat = OK` alone (R147); the step is counted; the instruction at `pc` is
fetched and decoded; its rule runs, or what the failed check raises is taken. -/
def step (s : State) : Host.Outcome State Fault Refusal :=
  match stoppedFault s.stat with
  | some f => .fault f
  | none =>
    match fetchDecode s with
    | .error e => raise (causeOf e) s.tick
    | .ok i => exec i s.tick

/-- `s` with the bytes of an instruction (bits numbered as spec/opcode_table.json numbers them, ten
bytes in all) at `pc`, less those that would lie outside memory, and with `stat = OK`, without which
the core does not step. Nothing else changes. It stands for a program loaded from outside the
machine (log entry 6). -/
def State.withFetchWord (s : State) (nbits w : Nat) : State :=
  { s with mem := s.mem.storeInside s.pc.toNat (tableBytes nbits w), stat := .ok }

end Sys2Proof.Machine
end

