-- ==== Sys2Proof/Machine/Assembler.lean ====
section
/-! DEFINITION. From a parsed source program to the binary image: labels, symbols and directives
(spec/30_encoding.md R64, R67 to R70). The image is what reset loads (R160). The core never sees a
directive, only the bytes it places. -/

namespace Sys2Proof.Machine

/-- A symbol name, as its characters. -/
abbrev SymbolName := List Char

/-- The operand of a data directive: a literal or a symbol (R67). -/
inductive DataValue where
  | literal (v : Int)
  | symbol (n : SymbolName)
deriving DecidableEq, Repr

/-- What a line places, after its label. -/
inductive Item where
  /-- A machine instruction (R66, R70). Where a symbol is given it stands for the instruction's
  constant, which is emitted as zero and patched (R68). -/
  | instr (i : Instr) (symbol : Option SymbolName)
  /-- `.byte`, `.word`, `.long`, `.quad`: 1, 2, 4 or 8 bytes (R67). -/
  | data (width : Nat) (v : DataValue)
  /-- `.pos n` (R67). -/
  | pos (n : Int)
  /-- `.align n` (R67). -/
  | align (n : Int)
deriving DecidableEq, Repr

/-- One line: an optional label, then an optional instruction or directive (R64). -/
structure SourceLine where
  label : Option SymbolName
  item  : Option Item
deriving DecidableEq, Repr

/-- Why there is no image. -/
inductive AsmError where
  /-- The line does not parse (R64 to R67). -/
  | parseFailure
  /-- A label is defined twice (R64). -/
  | duplicateLabel (n : SymbolName)
  /-- A symbol is used and never defined (R68). -/
  | undefinedSymbol (n : SymbolName)
  /-- `.pos` with a negative value (R67). -/
  | negativePosition
  /-- `.align` with a value that is not positive: it has no multiples to go to (log entry 8). -/
  | badAlignment
  /-- A symbol on an instruction that has no relocatable constant (R65, R68, conflict C9). -/
  | symbolNotAllowed
deriving DecidableEq, Repr

/-- The field of a record that a symbol's address is written to (R68). -/
structure Relocation where
  offset : Nat
  width  : Nat
  symbol : SymbolName
deriving DecidableEq, Repr

/-- The bytes of one line at its address, with the field still to be patched, if any. -/
structure LineRecord where
  addr  : Nat
  bytes : List Byte
  reloc : Option Relocation
deriving DecidableEq, Repr

/-- The labels with the addresses they are bound to (R64). -/
abbrev SymbolTable := List (SymbolName × Nat)

/-- The address of a symbol. -/
def addressOf (n : SymbolName) : SymbolTable → Option Nat
  | [] => none
  | e :: es => if e.1 = n then some e.2 else addressOf n es

/-- The place of the constant a symbol may stand for: offset 2 in a load-immediate, 1 in a jump or
call; a displacement is a literal only (R65, R68, conflict C9). -/
def relocationOffset : Instr → Option Nat
  | .irmovq _ _ => some 2
  | .jmp _ | .jle _ | .jl _ | .je _ | .jne _ | .jge _ | .jg _ | .call _ => some 1
  | .halt | .nop | .rrmovq _ _ | .cmovle _ _ | .cmovl _ _ | .cmove _ _ | .cmovne _ _
  | .cmovge _ _ | .cmovg _ _ | .rmmovq _ _ _ | .mrmovq _ _ _ | .addq _ _ | .subq _ _
  | .andq _ _ | .xorq _ _ | .ret | .pushq _ | .popq _ => none

/-- A label binds its name to the current address; a second definition is an error (R64). -/
def bindLabel (cursor : Nat) (table : SymbolTable) : Option SymbolName → Except AsmError SymbolTable
  | none => .ok table
  | some n =>
    match addressOf n table with
    | some _ => .error (.duplicateLabel n)
    | none => .ok (table ++ [(n, cursor)])

/-- A line's item at the address cursor: the cursor after it, and the record it emits (R67 to R69).
Literals and addresses are cut to the field's width, low bytes kept (R65, R67, decision D33). -/
def placeItem (cursor : Nat) : Option Item → Except AsmError (Nat × Option LineRecord)
  | none => .ok (cursor, none)
  | some (.instr i none) =>
    .ok (cursor + (encode i).length, some { addr := cursor, bytes := encode i, reloc := none })
  | some (.instr i (some n)) =>
    match relocationOffset i with
    | none => .error .symbolNotAllowed
    | some offset =>
      .ok (cursor + (encode i).length,
        some { addr := cursor, bytes := encode i,
               reloc := some { offset := offset, width := 8, symbol := n } })
  | some (.data width (.literal v)) =>
    .ok (cursor + width,
      some { addr := cursor, bytes := bytesOfNat width (BitVec.ofInt 64 v).toNat, reloc := none })
  | some (.data width (.symbol n)) =>
    .ok (cursor + width,
      some { addr := cursor, bytes := bytesOfNat width 0,
             reloc := some { offset := 0, width := width, symbol := n } })
  | some (.pos n) => if n < 0 then .error .negativePosition else .ok (n.toNat, none)
  | some (.align n) =>
    if n ≤ 0 then .error .badAlignment
    else .ok ((cursor + (n.toNat - 1)) / n.toNat * n.toNat, none)

/-- The first pass: addresses, records and labels, line by line from the given cursor. -/
def layout (cursor : Nat) (table : SymbolTable) :
    List SourceLine → Except AsmError (List LineRecord × SymbolTable)
  | [] => .ok ([], table)
  | ln :: lns =>
    match bindLabel cursor table ln.label with
    | .error e => .error e
    | .ok table' =>
      match placeItem cursor ln.item with
      | .error e => .error e
      | .ok (cursor', r) =>
        match layout cursor' table' lns with
        | .error e => .error e
        | .ok (rs, final) => .ok (r.toList ++ rs, final)

/-- The second pass on one record: the symbol's absolute address, little-endian, over the emitted zero
bytes (R68). -/
def patch (table : SymbolTable) (r : LineRecord) : Except AsmError (List Byte) :=
  match r.reloc with
  | none => .ok r.bytes
  | some f =>
    match addressOf f.symbol table with
    | none => .error (.undefinedSymbol f.symbol)
    | some a =>
      .ok (r.bytes.take f.offset ++ bytesOfNat f.width a ++ r.bytes.drop (f.offset + f.width))

/-- An image with bytes put at an offset; a gap before them is filled with zeros (R67, R69). -/
def overlay (image : List Byte) (addr : Nat) (bytes : List Byte) : List Byte :=
  (image ++ List.replicate (addr - image.length) 0).take addr ++ bytes ++
    image.drop (addr + bytes.length)

/-- The second pass: the records, patched, placed in an image. -/
def placeAll (table : SymbolTable) (image : List Byte) : List LineRecord → Except AsmError (List Byte)
  | [] => .ok image
  | r :: rs =>
    match patch table r with
    | .error e => .error e
    | .ok bytes => placeAll table (overlay image r.addr bytes) rs

/-- The binary image of a source program: a raw byte stream in which offset `N` is address `N`; the
address cursor starts at 0 (R69). -/
def assemble (lines : List SourceLine) : Except AsmError (List Byte) :=
  match layout 0 [] lines with
  | .error e => .error e
  | .ok (records, table) => placeAll table [] records

end Sys2Proof.Machine
end

