-- ==== Sys2Proof/Machine/AsmText.lean ====
section
/-! DEFINITION. The assembler's source text (spec/30_encoding.md R64 to R67): lines, labels, operands,
mnemonics and directives. What the spec leaves open about the text, blanks and case among it, is
DESIGN CHOICE (log entry 8). -/

namespace Sys2Proof.Machine

/-- A parser answers what it read and the characters after it. -/
abbrev Parser (α : Type) := List Char → Option (α × List Char)

def isBlank (c : Char) : Bool := c == ' ' || c == '\t' || c == '\r'

def skipBlanks (cs : List Char) : List Char := cs.dropWhile isBlank

/-- What the text names, by its spelling. -/
def lookup {α : Type} (name : List Char) : List (String × α) → Option α
  | [] => none
  | e :: es => if e.1.toList = name then some e.2 else lookup name es

/-- Letters and digits, a letter first (R64). -/
def parseName : Parser SymbolName
  | [] => none
  | c :: cs =>
    if c.isAlpha then some (c :: cs.takeWhile Char.isAlphanum, cs.dropWhile Char.isAlphanum)
    else none

def digitValue (c : Char) : Option Nat :=
  if c.isDigit then some (c.toNat - '0'.toNat)
  else if 'a' ≤ c ∧ c ≤ 'f' then some (c.toNat - 'a'.toNat + 10)
  else if 'A' ≤ c ∧ c ≤ 'F' then some (c.toNat - 'A'.toNat + 10)
  else none

/-- Digits of a base after those already read; `none` where there is no digit at all. -/
def parseDigits (base : Nat) (seen : Option Nat) : Parser Nat
  | [] => seen.map fun n => (n, [])
  | c :: cs =>
    match digitValue c with
    | some d =>
      if d < base then parseDigits base (some (seen.getD 0 * base + d)) cs
      else seen.map fun n => (n, c :: cs)
    | none => seen.map fun n => (n, c :: cs)

/-- A decimal literal, or a hexadecimal one with `0x` before it (R65). -/
def parseNatural : Parser Nat
  | '0' :: 'x' :: cs => parseDigits 16 none cs
  | cs => parseDigits 10 none cs

/-- A literal, which may carry a leading minus sign (R65, decision D35), with no blank after it (DESIGN
CHOICE, log entry 8). -/
def parseLiteral : Parser Int
  | '-' :: cs => (parseNatural cs).map fun p => (-(p.1 : Int), p.2)
  | cs => (parseNatural cs).map fun p => ((p.1 : Int), p.2)

/-- The register names without their sigil (R11). -/
def registerNames : List (String × RegId) :=
  [("rax", 0), ("rcx", 1), ("rdx", 2), ("rbx", 3), ("rsp", 4), ("rbp", 5), ("rsi", 6), ("rdi", 7),
   ("r8", 8), ("r9", 9), ("r10", 10), ("r11", 11), ("r12", 12), ("r13", 13), ("r14", 14)]

/-- The longest of the names that the text begins with. -/
def longestMatch (cs : List Char) : List (String × RegId) → Option (String × RegId)
  | [] => none
  | e :: es =>
    match longestMatch cs es with
    | none => if e.1.toList.isPrefixOf cs then some e else none
    | some best =>
      if e.1.toList.isPrefixOf cs && best.1.toList.length < e.1.toList.length then some e
      else some best

/-- `%` and a register name, by the longest match (R65), with no blank between them (DESIGN CHOICE, log
entry 8). -/
def parseRegister : Parser RegId
  | '%' :: cs => (longestMatch cs registerNames).map fun e => (e.2, cs.drop e.1.toList.length)
  | _ => none

/-- The comma between two operands, with blanks around it (R65). -/
def parseComma (cs : List Char) : Option (List Char) :=
  match skipBlanks cs with
  | ',' :: rest => some (skipBlanks rest)
  | _ => none

/-- `$` and a literal, or a bare symbol, never both (R65), with no blank after `$` (DESIGN CHOICE, log
entry 8). -/
def parseImmediate : Parser DataValue
  | '$' :: cs => (parseLiteral cs).map fun p => (.literal p.1, p.2)
  | cs => (parseName cs).map fun p => (.symbol p.1, p.2)

/-- `(` register `)` (R65), with no blank inside (DESIGN CHOICE, log entry 8). -/
def parseBase : Parser RegId
  | '(' :: cs =>
    match parseRegister cs with
    | some (r, ')' :: rest) => some (r, rest)
    | _ => none
  | _ => none

/-- A memory operand: an optional displacement, then an optional register in parentheses, not both
absent; no displacement is 0 and no register is `RNONE` (R65, R105). No blank stands between the two:
`8 (%rbx)` does not parse (DESIGN CHOICE, log entry 8). -/
def parseMemory (cs : List Char) : Option ((RegId × Word) × List Char) :=
  match parseLiteral cs with
  | some (d, rest) =>
    match parseBase rest with
    | some (r, rest') => some ((r, BitVec.ofInt 64 d), rest')
    | none => some ((RNONE, BitVec.ofInt 64 d), rest)
  | none => (parseBase cs).map fun p => ((p.1, 0), p.2)

/-- The operand grammar of a mnemonic (R66). -/
inductive Grammar where
  | bare (i : Instr)
  | regReg (f : RegId → RegId → Instr)
  | immReg (f : RegId → Word → Instr)
  | regMem (f : RegId → RegId → Word → Instr)
  | memReg (f : RegId → RegId → Word → Instr)
  | symbol (f : Word → Instr)
  | oneReg (f : RegId → Instr)

/-- The mnemonics (R66). -/
def mnemonics : List (String × Grammar) :=
  [("halt", .bare .halt), ("nop", .bare .nop),
   ("rrmovq", .regReg .rrmovq), ("cmovle", .regReg .cmovle), ("cmovl", .regReg .cmovl),
   ("cmove", .regReg .cmove), ("cmovne", .regReg .cmovne), ("cmovge", .regReg .cmovge),
   ("cmovg", .regReg .cmovg),
   ("irmovq", .immReg .irmovq), ("rmmovq", .regMem .rmmovq), ("mrmovq", .memReg .mrmovq),
   ("addq", .regReg .addq), ("subq", .regReg .subq), ("andq", .regReg .andq),
   ("xorq", .regReg .xorq),
   ("jmp", .symbol .jmp), ("jle", .symbol .jle), ("jl", .symbol .jl), ("je", .symbol .je),
   ("jne", .symbol .jne), ("jge", .symbol .jge), ("jg", .symbol .jg),
   ("call", .symbol .call), ("ret", .bare .ret),
   ("pushq", .oneReg .pushq), ("popq", .oneReg .popq)]

/-- Two operands with a comma between them. -/
def parsePair {α β : Type} (p : Parser α) (q : Parser β) : Parser (α × β) := fun cs =>
  match p cs with
  | none => none
  | some (a, rest) =>
    match parseComma rest with
    | none => none
    | some rest' => (q rest').map fun r => ((a, r.1), r.2)

/-- The operands of a mnemonic, source on the left and destination on the right (R66). -/
def parseOperands : Grammar → Parser Item
  | .bare i, cs => some (.instr i none, cs)
  | .regReg f, cs =>
    (parsePair parseRegister parseRegister cs).map fun p => (.instr (f p.1.1 p.1.2) none, p.2)
  | .immReg f, cs =>
    (parsePair parseImmediate parseRegister cs).map fun p =>
      (match p.1.1 with
       | .literal v => .instr (f p.1.2 (BitVec.ofInt 64 v)) none
       | .symbol n => .instr (f p.1.2 0) (some n), p.2)
  | .regMem f, cs =>
    (parsePair parseRegister parseMemory cs).map fun p =>
      (.instr (f p.1.1 p.1.2.1 p.1.2.2) none, p.2)
  | .memReg f, cs =>
    (parsePair parseMemory parseRegister cs).map fun p =>
      (.instr (f p.1.2 p.1.1.1 p.1.1.2) none, p.2)
  | .symbol f, cs => (parseName cs).map fun p => (.instr (f 0) (some p.1), p.2)
  | .oneReg f, cs => (parseRegister cs).map fun p => (.instr (f p.1) none, p.2)

/-- The operand of a data directive: a literal without sigil, or a symbol (R67). -/
def parseDatum (cs : List Char) : Option (DataValue × List Char) :=
  match parseLiteral cs with
  | some (v, rest) => some (.literal v, rest)
  | none => (parseName cs).map fun p => (.symbol p.1, p.2)

/-- The directives (R67). -/
def directives : List (String × Parser Item) :=
  [("pos", fun cs => (parseLiteral cs).map fun p => (.pos p.1, p.2)),
   ("align", fun cs => (parseLiteral cs).map fun p => (.align p.1, p.2)),
   ("byte", fun cs => (parseDatum cs).map fun p => (.data 1 p.1, p.2)),
   ("word", fun cs => (parseDatum cs).map fun p => (.data 2 p.1, p.2)),
   ("long", fun cs => (parseDatum cs).map fun p => (.data 4 p.1, p.2)),
   ("quad", fun cs => (parseDatum cs).map fun p => (.data 8 p.1, p.2))]

/-- A word of one of the tables and its operands, with blanks between them. -/
def parseKeyword (table : List (String × Parser Item)) : Parser Item := fun cs =>
  match parseName cs with
  | none => none
  | some (n, rest) =>
    match lookup n table with
    | none => none
    | some p => p (skipBlanks rest)

/-- An optional instruction or directive that takes the rest of the line (R64). -/
def parseItem (cs : List Char) : Except AsmError (Option Item) :=
  match skipBlanks cs with
  | [] => .ok none
  | c :: rest =>
    match (if c = '.' then parseKeyword directives rest
           else parseKeyword (mnemonics.map fun e => (e.1, parseOperands e.2)) (c :: rest)) with
    | none => .error .parseFailure
    | some (item, rest') =>
      if skipBlanks rest' = [] then .ok (some item) else .error .parseFailure

/-- One line: a comment runs from `#` to the end of the line; then an optional label with its colon,
and an optional item (R64). -/
def parseLine (cs : List Char) : Except AsmError SourceLine :=
  let text := skipBlanks (cs.takeWhile (· != '#'))
  match parseName text with
  | some (n, ':' :: rest) => (parseItem rest).map fun it => { label := some n, item := it }
  | _ => (parseItem text).map fun it => { label := none, item := it }

/-- The lines of a text. -/
def splitLines : List Char → List (List Char)
  | [] => [[]]
  | c :: cs =>
    if c = '\n' then [] :: splitLines cs
    else
      match splitLines cs with
      | [] => [[c]]
      | ln :: lns => (c :: ln) :: lns

def parseLines : List (List Char) → Except AsmError (List SourceLine)
  | [] => .ok []
  | cs :: rest =>
    match parseLine cs with
    | .error e => .error e
    | .ok ln => (parseLines rest).map fun lns => ln :: lns

/-- The image of a source text, or why there is none. -/
def assembleText (source : String) : Except AsmError (List Byte) :=
  match parseLines (splitLines source.toList) with
  | .error e => .error e
  | .ok lines => assemble lines

end Sys2Proof.Machine
end

