-- ==== Sys2Proof/Machine/Report.lean ====
section
/-! DEFINITION. What the host observes at the end of a run (spec/70_reset_and_hazards.md R168). Its
printed format is outside the core (R4). -/

namespace Sys2Proof.Machine

/-- One line of the list of differences: where, the value before the run and the value after it. -/
structure Change (α : Type) where
  place  : α
  before : Word
  after  : Word
deriving DecidableEq, Repr

/-- The content of the report of R168. -/
structure Report where
  status    : Status
  pc        : Word
  /-- The condition codes, packed in the order of decision D29 (R18). -/
  codes     : BitVec 3
  registers : List (Change RegId)
  /-- 8-byte words at the addresses that are multiples of 8 (decision D30). -/
  words     : List (Change Nat)
deriving DecidableEq, Repr

/-- The line for a place whose value has changed, or none. -/
def changeAt {α : Type} (place : α) (before after : Word) : List (Change α) :=
  if before = after then [] else [{ place := place, before := before, after := after }]

/-- The 8-byte word at address `k`, little-endian (R30). -/
def Memory.wordAt (m : Memory) (k : Nat) : Word :=
  wordOf (m.byteAt k) (m.byteAt (k + 1)) (m.byteAt (k + 2)) (m.byteAt (k + 3)) (m.byteAt (k + 4))
    (m.byteAt (k + 5)) (m.byteAt (k + 6)) (m.byteAt (k + 7))

/-- The report of an end state against the snapshot taken before the first step (R168). The words are
those wholly inside memory (log entry 9). -/
def report (snapshot final : State) : Report where
  status := final.stat
  pc := final.pc
  codes := final.cc.pack
  registers := (List.finRange 15).flatMap fun j =>
    changeAt (BitVec.ofNat 4 j.val) snapshot.regs[j] final.regs[j]
  words := (List.range (final.mem.size / 8)).flatMap fun j =>
    changeAt (8 * j) (snapshot.mem.wordAt (8 * j)) (final.mem.wordAt (8 * j))

end Sys2Proof.Machine
end

