-- ==== Sys2Proof/Machine/Reset.lean ====
section
/-! DEFINITION. Reset with its two parameters, the capacity and the binary image
(spec/70_reset_and_hazards.md R160, R161). -/

namespace Sys2Proof.Machine

/-- Reset (R160): the start state of R26 with main memory of `size` bytes and the image loaded verbatim
into its low bytes; `none` where reset is refused, because the image is larger than memory (R161,
decision D26) or the capacity is outside the range of R5. -/
def resetWith (size : Nat) (image : List Byte) : Option State :=
  if 1 ≤ size ∧ size < 2 ^ 63 ∧ image.length ≤ size then
    some { State.reset with mem := (Memory.blank size).storeBytes 0 image }
  else none

end Sys2Proof.Machine
end

