-- ==== Sys2Proof/Machine/Run.lean ====
section
/-! DEFINITION. The run loop and its step limit (spec/70_reset_and_hazards.md R165 to R167). -/

namespace Sys2Proof.Machine

/-- At most `n` turns of the loop body of R165: a step while `stat = OK`. -/
def runFor : Nat → State → State
  | 0, s => s
  | n + 1, s =>
    match step s with
    | .next s' => runFor n s'
    | .fault _ => s
    | .refused _ => s

/-- `run(MAX_STEPS)` of R165: step while `stat = OK` and `steps < MAX_STEPS`. Each step adds one to
`steps`, so the loop turns at most `MAX_STEPS − steps` times; it turns no more once the core has
stopped (R147). The status it returns is the `stat` of the end state (R167). -/
def run (maxSteps : Nat) (s : State) : State := runFor (maxSteps - s.steps) s

end Sys2Proof.Machine
end

