-- ==== Sys2Proof/Safety.lean ====
section
/-! DEFINITION. What claims call a good state, a finished and a crashed program, and a safe run
(spec/70_reset_and_hazards.md R167). -/

namespace Sys2Proof

open Sys2Proof.Machine

/-- The invariant of the machine: memory is in canonical form, inside a capacity in the range of R5;
and the zero and the sign code never hold together (R115). -/
def Invariant (s : State) : Prop := s.mem.wf ∧ ¬ (s.cc.ZF = true ∧ s.cc.SF = true)

/-- The states that some run from reset goes through, for some capacity and some image (R160). -/
inductive Reachable : State → Prop where
  | start {size : Nat} {image : List Byte} {s : State} :
      resetWith size image = some s → Reachable s
  | next {s s' : State} : Reachable s → step s = .next s' → Reachable s'

/-- The program has finished (R167). -/
def Finished (s : State) : Prop := s.stat = .hlt

/-- The program has crashed (R167). -/
def Crashed (s : State) : Prop := s.stat = .adr ∨ s.stat = .ins

/-- A run of at most `maxSteps` steps that does not crash (R165, R167). -/
def SafeRun (maxSteps : Nat) (s : State) : Prop := ¬ Crashed (run maxSteps s)

end Sys2Proof
end

