-- ==== Sys2Proof/Certificates/Slice0/Obligations.lean ====
section
/-! DEFINITION. The statements for the provers, from the numbered rules of spec/. -/

namespace Sys2Proof.Claims

open Sys2Proof.Machine

/-! ### Words the statements share -/

/-- Every register but those listed reads as before. -/
def RegsKeptExcept (rs : List RegId) (s t : State) : Prop :=
  ∀ r, r ∉ rs → t.readReg r = s.readReg r

/-- Every byte of memory reads as before, and the capacity is the same. -/
def MemKept (s t : State) : Prop :=
  t.mem.size = s.mem.size ∧ ∀ k, t.mem.byteAt k = s.mem.byteAt k

/-- Every byte of memory outside the eight at `a` reads as before, and the capacity is the same. -/
def MemKeptOutside (a : Word) (s t : State) : Prop :=
  t.mem.size = s.mem.size ∧
  ∀ k, k < a.toNat ∨ a.toNat + 8 ≤ k → t.mem.byteAt k = s.mem.byteAt k

/-- The eight bytes at `a` hold `v`, little-endian: address `a + j` holds bits `8j+7` to `8j` (R30). -/
def WordStands (a v : Word) (m : Memory) : Prop :=
  ∀ j < 8, m.byteAt (a.toNat + j) = v.extractLsb' (8 * j) 8

/-- The bytes stand at `pc`, wholly inside memory. -/
def BytesStandAtPc (bs : List Byte) (s : State) : Prop :=
  ∀ (k : Nat) (h : k < bs.length), s.mem.read1 (s.pc + BitVec.ofNat 64 k) = some bs[k]

/-- The seven conditional moves and whether each copies, over the condition codes (R90 to R97). -/
def moveRows (rA rB : RegId) (c : CondCodes) : List (Instr × Bool) :=
  [(.rrmovq rA rB, true), (.cmovle rA rB, (c.SF ^^ c.OF) || c.ZF), (.cmovl rA rB, c.SF ^^ c.OF),
   (.cmove rA rB, c.ZF), (.cmovne rA rB, !c.ZF), (.cmovge rA rB, !(c.SF ^^ c.OF)),
   (.cmovg rA rB, !(c.SF ^^ c.OF) && !c.ZF)]

/-- The seven jumps and whether each is taken, over the condition codes (R90, R121 to R127). -/
def jumpRows (dest : Word) (c : CondCodes) : List (Instr × Bool) :=
  [(.jmp dest, true), (.jle dest, (c.SF ^^ c.OF) || c.ZF), (.jl dest, c.SF ^^ c.OF),
   (.je dest, c.ZF), (.jne dest, !c.ZF), (.jge dest, !(c.SF ^^ c.OF)),
   (.jg dest, !(c.SF ^^ c.OF) && !c.ZF)]

/-- The six conditional jumps and whether each is taken after `subq` has compared `b` with `a` (the
last column of R90). -/
def signedJumpRows (dest a b : Word) : List (Instr × Bool) :=
  [(.jle dest, decide (b.toInt ≤ a.toInt)), (.jl dest, decide (b.toInt < a.toInt)),
   (.je dest, decide (b = a)), (.jne dest, decide (b ≠ a)),
   (.jge dest, decide (b.toInt ≥ a.toInt)), (.jg dest, decide (b.toInt > a.toInt))]

/-- The four ALU instructions with the result and the overflow rule each has for `a = x[rA]` and
`b = x[rB]` (R111 to R114). -/
def aluRows (rA rB : RegId) (a b : Word) : List (Instr × Word × Bool) :=
  [(.addq rA rB, b + a, decide (a.msb = b.msb ∧ (b + a).msb ≠ a.msb)),
   (.subq rA rB, b - a, decide (a.msb ≠ b.msb ∧ (b - a).msb ≠ b.msb)),
   (.andq rA rB, b &&& a, false),
   (.xorq rA rB, b ^^^ a, false)]

/-- The registers the table of R14 lets an instruction write. -/
def mayWrite : Instr → List RegId
  | .halt | .nop | .jmp _ | .jle _ | .jl _ | .je _ | .jne _ | .jge _ | .jg _ => []
  | .rrmovq _ rB | .cmovle _ rB | .cmovl _ rB | .cmove _ rB | .cmovne _ rB | .cmovge _ rB
  | .cmovg _ rB => [rB]
  | .irmovq rB _ => [rB]
  | .rmmovq _ _ _ => []
  | .mrmovq rA _ _ => [rA]
  | .addq _ rB | .subq _ rB | .andq _ rB | .xorq _ rB => [rB]
  | .call _ | .ret | .pushq _ => [RSP]
  | .popq rA => [rA, RSP]

/-- Class 6, the writers of the condition codes (R19). -/
def isAlu : Instr → Bool
  | .addq _ _ | .subq _ _ | .andq _ _ | .xorq _ _ => true
  | .halt | .nop | .rrmovq _ _ | .cmovle _ _ | .cmovl _ _ | .cmove _ _ | .cmovne _ _
  | .cmovge _ _ | .cmovg _ _ | .irmovq _ _ | .rmmovq _ _ _ | .mrmovq _ _ _ | .jmp _ | .jle _
  | .jl _ | .je _ | .jne _ | .jge _ | .jg _ | .call _ | .ret | .pushq _ | .popq _ => false

/-- The predicate through which an instruction of class 2 or 7 reads the condition codes (R19, R90). -/
def predicateOf : Instr → Option Pred
  | .rrmovq _ _ | .jmp _ => some .always
  | .cmovle _ _ | .jle _ => some .le
  | .cmovl _ _ | .jl _ => some .l
  | .cmove _ _ | .je _ => some .e
  | .cmovne _ _ | .jne _ => some .ne
  | .cmovge _ _ | .jge _ => some .ge
  | .cmovg _ _ | .jg _ => some .g
  | .halt | .nop | .irmovq _ _ | .rmmovq _ _ _ | .mrmovq _ _ _ | .addq _ _ | .subq _ _
  | .andq _ _ | .xorq _ _ | .call _ | .ret | .pushq _ | .popq _ => none

/-- The instructions that store (R32). -/
def stores : Instr → Bool
  | .rmmovq _ _ _ | .call _ | .pushq _ => true
  | .halt | .nop | .rrmovq _ _ | .cmovle _ _ | .cmovl _ _ | .cmove _ _ | .cmovne _ _
  | .cmovge _ _ | .cmovg _ _ | .irmovq _ _ | .mrmovq _ _ _ | .addq _ _ | .subq _ _ | .andq _ _
  | .xorq _ _ | .jmp _ | .jle _ | .jl _ | .je _ | .jne _ | .jge _ | .jg _ | .ret | .popq _ => false

/-- The instructions that set the `pc` to anything but the next instruction (R16), and halt, which
leaves it. -/
def setsPc : Instr → Bool
  | .halt | .jmp _ | .jle _ | .jl _ | .je _ | .jne _ | .jge _ | .jg _ | .call _ | .ret => true
  | .nop | .rrmovq _ _ | .cmovle _ _ | .cmovl _ _ | .cmove _ _ | .cmovne _ _ | .cmovge _ _
  | .cmovg _ _ | .irmovq _ _ | .rmmovq _ _ _ | .mrmovq _ _ _ | .addq _ _ | .subq _ _
  | .andq _ _ | .xorq _ _ | .pushq _ | .popq _ => false

/-- An instruction with an operand slot that is absent (R61). -/
def hasAbsentSlot : Instr → Bool
  | .irmovq _ _ | .pushq _ | .popq _ => true
  | .halt | .nop | .rrmovq _ _ | .cmovle _ _ | .cmovl _ _ | .cmove _ _ | .cmovne _ _
  | .cmovge _ _ | .cmovg _ _ | .rmmovq _ _ _ | .mrmovq _ _ _ | .addq _ _ | .subq _ _
  | .andq _ _ | .xorq _ _ | .jmp _ | .jle _ | .jl _ | .je _ | .jne _ | .jge _ | .jg _ | .call _
  | .ret => false

/-! ### The status of a step, written from R145 alone

The order of the six checks over the bytes in memory, by the class and sub-function nibbles, with no
use of the decoder or of a meaning. -/

/-- R59: the classes 0 to 0xB with the sub-functions each defines. -/
def recognised (icode ifun : Nat) : Bool :=
  (icode ∈ [0, 1, 3, 4, 5, 8, 9, 0xA, 0xB] && ifun == 0) || (icode ∈ [2, 7] && ifun ≤ 6) ||
    (icode == 6 && ifun ≤ 3)

/-- Formats R and I (R50). -/
def hasRegisterByte (icode : Nat) : Bool := icode ∈ [2, 3, 4, 5, 6, 0xA, 0xB]

/-- Where the constant stands, for formats J and I (R53). -/
def constantAt (icode : Nat) : Option Nat :=
  if icode ∈ [7, 8] then some 1 else if icode ∈ [3, 4, 5] then some 2 else none

/-- R60: a register field that is needed holds 15. -/
def fieldFails (icode rA rB : Nat) : Bool :=
  (icode ∈ [2, 6] && (rA == 15 || rB == 15)) || (icode == 3 && rB == 15) ||
    (icode ∈ [4, 5, 0xA, 0xB] && rA == 15)

/-- The address of the data access of a class, if it makes one (R105, R130, R131, R135, R136). -/
def dataAddress (icode : Nat) (rB : RegId) (c : Word) (s : State) : Option Word :=
  if icode ∈ [4, 5] then some ((if rB = RNONE then 0 else (s.readReg rB).getD 0) + c)
  else if icode ∈ [8, 0xA] then some (s.rsp - 8)
  else if icode ∈ [9, 0xB] then some s.rsp
  else none

/-- The status a step from `s` ends in: the first cause of R145 that applies, else halt's `HLT` or
`OK`. -/
def statusByPriority (s : State) : Status :=
  let b0 := (s.mem.byteAt s.pc.toNat).toNat
  let icode := b0 / 16
  let b1 := s.mem.byteAt (s.pc.toNat + 1)
  let rB : RegId := b1.extractLsb' 0 4
  if ¬ s.mem.Valid s.pc 1 then .adr
  else if ¬ recognised icode (b0 % 16) then .ins
  else if hasRegisterByte icode ∧ ¬ s.mem.Valid (s.pc + 1) 1 then .adr
  else if (constantAt icode).any (fun k => ¬ s.mem.Valid (s.pc + BitVec.ofNat 64 k) 8) then .adr
  else if fieldFails icode (b1.toNat / 16) (b1.toNat % 16) then .ins
  else if (dataAddress icode rB
      (((constantAt icode).bind fun k => s.mem.read8 (s.pc + BitVec.ofNat 64 k)).getD 0) s).any
      (fun a => ¬ s.mem.Valid a 8) then .adr
  else if icode = 0 then .hlt
  else .ok

/-! ### Source programs -/

/-- Instructions one after another, with no label, symbol or directive. -/
def block (is : List Instr) : List SourceLine :=
  is.map fun i => { label := none, item := some (.instr i none) }

/-- The instruction forms a symbol may stand in, waiting for their constant (R65, R68). -/
def symbolForms (rB : RegId) : List (Word → Instr) :=
  [.irmovq rB, .jmp, .jle, .jl, .je, .jne, .jge, .jg, .call]

/-- A line whose item uses the symbol. -/
def Uses (n : SymbolName) (ln : SourceLine) : Prop :=
  (∃ i, ln.item = some (.instr i (some n))) ∨ (∃ w, ln.item = some (.data w (.symbol n)))

end Sys2Proof.Claims

open Sys2Proof Sys2Proof.Machine Sys2Proof.Claims

/-! ## Reset and the invariant -/

/-- R160, R161 with the values of R26. The values beyond the image bytes are the spec's decisions
D10 to D13, D24, D26 and D27. The interface's reset state is the one for the empty image and the
model's own choice of capacity (log entry 1). -/
def Obligations.ResetLoadsImageAndFixesEverythingElse : Prop :=
  (∀ (size : Nat) (image : List Byte), 1 ≤ size → size < 2 ^ 63 → image.length ≤ size →
    ∃ s, resetWith size image = some s ∧ s.mem.size = size ∧
      (∀ (k : Nat) (h : k < image.length), s.mem.byteAt k = image[k]) ∧
      (∀ k, image.length ≤ k → s.mem.byteAt k = 0) ∧
      (∀ r, r ≠ RNONE → s.readReg r = some 0) ∧
      s.pc = 0 ∧ s.cc.ZF = true ∧ s.cc.SF = false ∧ s.cc.OF = false ∧
      s.stat = .ok ∧ s.steps = 0) ∧
  (∀ (size : Nat) (image : List Byte), size < image.length → resetWith size image = none) ∧
  resetWith Config.memSize [] = some State.reset

/-- The invariant (canonical memory within a legal capacity; never `ZF` and `SF` together) holds of the
interface's reset state and of every state reset produces. -/
def Obligations.EveryResetStateMeetsInv : Prop :=
  Invariant State.reset ∧ ∀ size image s, resetWith size image = some s → Invariant s

/-- Every step from a state that meets the invariant leads to one that meets it. Its second part is the
sentence of R115 that `ZF = 1` and `SF = 1` never hold together, for the whole machine. -/
def Obligations.StepKeepsInv : Prop :=
  ∀ s t : State, Invariant s → step s = .next t → Invariant t

/-! ## Step, fetch and decode -/

/-- R80, R81: where the bytes at `pc` decode to an instruction, a step from `OK` is that instruction's
rule, on the state with the step counted and nothing else changed. -/
def Obligations.StepRunsDecodedInstruction : Prop :=
  ∀ (s : State) (bs : List Byte) (i : Instr), s.stat = .ok → BytesStandAtPc bs s →
    decode bs = .ok i → step s = exec i { s with steps := s.steps + 1 }

/-- R52 to R55: some of the spec's own words (95_test_vectors.md section 2.1). -/
def Obligations.SpecWordsDecode : Prop :=
  decode [0x00] = .ok .halt ∧ decode [0x10] = .ok .nop ∧
  decode [0x23, 0x89] = .ok (.cmove 8 9) ∧
  decode [0x30, 0xF0, 0xFB, 0xFF, 0xFF, 0xFF, 0xFF, 0xFF, 0xFF, 0xFF] =
    .ok (.irmovq 0 0xFFFFFFFFFFFFFFFB) ∧
  decode [0x40, 0x0F, 0x00, 0x01, 0, 0, 0, 0, 0, 0] = .ok (.rmmovq 0 RNONE 0x100) ∧
  decode [0x50, 0x13, 0xF8, 0xFF, 0xFF, 0xFF, 0xFF, 0xFF, 0xFF, 0xFF] =
    .ok (.mrmovq 1 3 0xFFFFFFFFFFFFFFF8) ∧
  decode [0x61, 0x71] = .ok (.subq 7 1) ∧
  decode [0x76, 0x40, 0, 0, 0, 0, 0, 0, 0] = .ok (.jg 0x40) ∧
  decode [0x80, 0x34, 0x12, 0, 0, 0, 0, 0, 0] = .ok (.call 0x1234) ∧
  decode [0x90] = .ok .ret ∧ decode [0xA0, 0x7F] = .ok (.pushq 7) ∧
  decode [0xB0, 0x1F] = .ok (.popq 1)

/-- R63: decode and encode are inverse, in both directions, for every instruction with every operand at
every value: the bytes that decode to `i` are exactly its encodings, followed by anything. Only an
absent slot gives an instruction more than one spelling. -/
def Obligations.DecodeEncodeInverse : Prop :=
  (∀ i : Instr, decode (encode i) = .ok i) ∧
  (∀ (bs : List Byte) (i : Instr),
    decode bs = .ok i ↔ ∃ x rest, bs = encodeWith x i ++ rest) ∧
  (∀ (i : Instr) (x : RegId), hasAbsentSlot i = false → encodeWith x i = encode i) ∧
  (∀ (i : Instr) (x y : RegId), hasAbsentSlot i = true → encodeWith x i = encodeWith y i → x = y)

/-- R56: the decoder reads exactly as many bytes as the class nibble says: they are enough, and no fewer
are. -/
def Obligations.ClassNibbleAloneGivesLength : Prop :=
  (∀ c : BitVec 4, lengthOfClass c =
    if c.toNat ∈ [0, 1, 9] then 1 else if c.toNat ∈ [2, 6, 0xA, 0xB] then 2
    else if c.toNat ∈ [7, 8] then 9 else if c.toNat ∈ [3, 4, 5] then 10 else 0) ∧
  ∀ (b0 : Byte) (rest : List Byte) (i : Instr), decode (b0 :: rest) = .ok i →
    decode ((b0 :: rest).take (lengthOfClass (b0.extractLsb' 4 4))) = .ok i ∧
    ∀ n, n < lengthOfClass (b0.extractLsb' 4 4) → ∃ e, decode ((b0 :: rest).take n) = .error e

/-- R17, R58: a completing step fetched its whole instruction inside memory; the fetch never wraps to
address 0. -/
def Obligations.CompletedStepFetchedInsideMemory : Prop :=
  ∀ s t : State, s.mem.wf → step s = .next t → t.stat = .ok →
    ∃ i, fetchDecode s = .ok i ∧ s.pc.toNat + (encode i).length ≤ s.mem.size ∧
      (s.pc + BitVec.ofNat 64 (encode i).length).toNat = s.pc.toNat + (encode i).length

/-! ## Statuses and stops -/

/-- R141, R142, R145: a step from `OK` always answers a next state, counted, and its status is the first
cause of the priority list. The order of the causes after the opcode fetch is decision D21, the whole
opcode byte D20, the register fields D18. -/
def Obligations.StepStatusIsFirstCauseInPriorityOrder : Prop :=
  ∀ s : State, s.mem.wf → s.stat = .ok →
    ∃ t, step s = .next t ∧ t.stat = statusByPriority s ∧ t.steps = s.steps + 1

/-- R35: a step in which an access is invalid changes no register, no byte of memory, no condition code
and not `pc`; only `stat` and `steps`. A failing push, call, pop or return leaves `%rsp` as it was. -/
def Obligations.AddressFaultChangesOnlyStatAndSteps : Prop :=
  ∀ s t : State, step s = .next t → t.stat = .adr →
    t = { s with stat := .adr, steps := s.steps + 1 } ∧ t.rsp = s.rsp

/-- R146 for the other two stops: a step that ends in `HLT` or `INS` changes `stat` and `steps` and
nothing else. That `pc` stays is decision D7. -/
def Obligations.HaltAndInvalidStepsChangeOnlyStatAndSteps : Prop :=
  ∀ s t : State, step s = .next t → t.stat = .hlt ∨ t.stat = .ins →
    t = { s with stat := t.stat, steps := s.steps + 1 }

/-- R143: `HLT` is raised by the halt instruction and by nothing else, and it stops the core as the two
faults do. -/
def Obligations.HltRaisedByHaltAlone : Prop :=
  (∀ s t : State, step s = .next t → (t.stat = .hlt ↔ fetchDecode s = .ok .halt)) ∧
  (∀ s : State, s.stat = .hlt ∨ s.stat = .adr ∨ s.stat = .ins → ∃ f, step s = .fault f)

/-- R147, decision D24: stop is final. There is a step exactly from `OK`, and the three stops are kept
distinct. -/
def Obligations.OnlyOkStatesStep : Prop :=
  ∀ s : State,
    (s.stat = .hlt → step s = .fault .stoppedByHalt) ∧
    (s.stat = .adr → step s = .fault .stoppedByAddressFault) ∧
    (s.stat = .ins → step s = .fault .stoppedByInvalidInstruction) ∧
    (s.stat = .ok → ∃ t, step s = .next t)

/-- R60, R142 (cause INS-2), decision D18: an instruction whose register field names no register where
one is needed stops with `INS`, whatever the condition codes and addresses are. -/
def Obligations.MissingRegisterStopsWithIns : Prop :=
  ∀ (i : Instr) (s : State), i.wf = false → exec i s = .next { s with stat := .ins }

/-! ## Instructions -/

/-- R82, decision D7: halt stops the core with `HLT`, and the `pc` stays at the halt. -/
def Obligations.HaltStopsWithHlt : Prop :=
  (∀ s : State, exec .halt s = .next { s with stat := .hlt }) ∧
  ∀ s : State, s.stat = .ok → s.mem.read1 s.pc = some 0x00 →
    step s = .next { s with stat := .hlt, steps := s.steps + 1 }

/-- R83: nop is the byte 0x10, advances `pc` by 1 and changes nothing else; in the last byte of memory it
completes, and the next step's fetch gives `ADR`. `ADR` comes only from the opcode fetch. -/
def Obligations.NopOnlyAdvancesPc : Prop :=
  encode .nop = [0x10] ∧
  (∀ s : State, exec .nop s = .next { s with pc := s.pc + 1, stat := .ok }) ∧
  (∀ s : State, s.stat = .ok → s.mem.read1 s.pc = some 0x10 →
    step s = .next { s with pc := s.pc + 1, steps := s.steps + 1 }) ∧
  (∀ s : State, s.stat = .ok → ¬ s.mem.Valid s.pc 1 →
    step s = .next { s with stat := .adr, steps := s.steps + 1 }) ∧
  ∀ s : State, s.mem.wf → s.stat = .ok → s.mem.read1 s.pc = some 0x10 →
    s.pc.toNat + 1 = s.mem.size →
    ∃ t u, step s = .next t ∧ t.stat = .ok ∧ t.pc.toNat = s.mem.size ∧
      step t = .next u ∧ u.stat = .adr

/-- R91 to R98 with the predicate formulas of R90 (decision D8): each of the seven moves completes, copies
exactly where its predicate holds, and advances `pc` by 2; with its frame. -/
def Obligations.MovesCopyWherePredicateHolds : Prop :=
  ∀ (s : State) (rA rB : RegId) (a b : Word), s.readReg rA = some a → s.readReg rB = some b →
    ∀ row ∈ moveRows rA rB s.cc, ∃ t, exec row.1 s = .next t ∧
      t.readReg rB = some (if row.2 then a else b) ∧ RegsKeptExcept [rB] s t ∧
      t.pc = s.pc + 2 ∧ t.cc = s.cc ∧ MemKept s t ∧ t.stat = .ok ∧ t.steps = s.steps

/-- R100: irmovq completes, writes the constant whole to `rB` and advances `pc` by 10; with its frame. -/
def Obligations.IrmovqLoadsConstant : Prop :=
  ∀ (s : State) (rB : RegId) (v : Word), rB ≠ RNONE →
    ∃ t, exec (.irmovq rB v) s = .next t ∧ t.readReg rB = some v ∧ RegsKeptExcept [rB] s t ∧
      t.pc = s.pc + 10 ∧ t.cc = s.cc ∧ MemKept s t ∧ t.stat = .ok ∧ t.steps = s.steps

/-- R36, R105: the effective address is the displacement without a base (decision D17), and base plus
displacement modulo 2^64 with one; a displacement read as negative moves the address down. -/
def Obligations.EffectiveAddressIsBasePlusDisplacement : Prop :=
  ∀ (s : State) (rB : RegId) (d : Word),
    (rB = RNONE → effectiveAddress rB d s = d) ∧
    ∀ b, s.readReg rB = some b →
      effectiveAddress rB d s = b + d ∧
      effectiveAddress rB d s = BitVec.ofInt 64 ((b.toNat : Int) + d.toInt) ∧
      (effectiveAddress rB d s).toNat = (b.toNat + d.toNat) % 2 ^ 64

/-- R106: rmmovq stores the eight bytes of `x[rA]` at the effective address, little-endian, and changes
nothing else but `pc`; where the address is not wholly inside memory it stops with `ADR` and nothing
is written. -/
def Obligations.RmmovqStoresAtEffectiveAddress : Prop :=
  ∀ (s : State) (rA rB : RegId) (d a : Word), s.mem.wf → s.readReg rA = some a →
    (s.mem.Valid (effectiveAddress rB d s) 8 →
      ∃ t, exec (.rmmovq rA rB d) s = .next t ∧
        WordStands (effectiveAddress rB d s) a t.mem ∧
        MemKeptOutside (effectiveAddress rB d s) s t ∧
        RegsKeptExcept [] s t ∧ t.pc = s.pc + 10 ∧ t.cc = s.cc ∧ t.stat = .ok ∧
        t.steps = s.steps) ∧
    (¬ s.mem.Valid (effectiveAddress rB d s) 8 →
      exec (.rmmovq rA rB d) s = .next { s with stat := .adr })

/-- R107: mrmovq loads the eight bytes at the effective address, little-endian, into `x[rA]`; the address
is formed from the old registers, also where `rA = rB`; with its frame; where the address is not wholly
inside memory it stops with `ADR`. -/
def Obligations.MrmovqLoadsFromEffectiveAddress : Prop :=
  ∀ (s : State) (rA rB : RegId) (d : Word), rA ≠ RNONE →
    (s.mem.Valid (effectiveAddress rB d s) 8 →
      ∃ t v, exec (.mrmovq rA rB d) s = .next t ∧ t.readReg rA = some v ∧
        WordStands (effectiveAddress rB d s) v s.mem ∧
        RegsKeptExcept [rA] s t ∧ MemKept s t ∧ t.pc = s.pc + 10 ∧ t.cc = s.cc ∧ t.stat = .ok ∧
        t.steps = s.steps) ∧
    (¬ s.mem.Valid (effectiveAddress rB d s) 8 →
      exec (.mrmovq rA rB d) s = .next { s with stat := .adr })

/-- R110: every ALU instruction writes all three condition codes from its result, on every execution: `ZF`
and `SF` from the result's bits, `OF` by the instruction's overflow rule, which is 0 for the bitwise
operations; whatever the codes were, and also where the destination keeps its value. That the overflow
rule of subq takes `x[rB]` as the minuend is decision D9. -/
def Obligations.AluWritesAllThreeCodes : Prop :=
  ∀ (s : State) (rA rB : RegId) (a b : Word), s.readReg rA = some a → s.readReg rB = some b →
    ∀ row ∈ aluRows rA rB a b, ∃ t r, exec row.1 s = .next t ∧ t.readReg rB = some r ∧
      t.cc.ZF = decide (r = 0) ∧ t.cc.SF = r.getLsbD 63 ∧ t.cc.OF = row.2.2

/-- R111 to R114, R116: each ALU instruction completes with its result in `rB`, both sources read before
the write, and `pc` advanced by 2; with its frame. That `x[rB]` is the minuend is decision D9. -/
def Obligations.AluResultReplacesSecondOperand : Prop :=
  ∀ (s : State) (rA rB : RegId) (a b : Word), s.readReg rA = some a → s.readReg rB = some b →
    ∀ row ∈ aluRows rA rB a b, ∃ t, exec row.1 s = .next t ∧ t.readReg rB = some row.2.1 ∧
      RegsKeptExcept [rB] s t ∧ t.pc = s.pc + 2 ∧ MemKept s t ∧ t.stat = .ok ∧ t.steps = s.steps

/-- R113, R114: andq is the opcode byte 0x62 and xorq 0x63; with a register field of 15 each stops with
`INS`; otherwise each writes the bitwise AND or exclusive OR of its operands to `rB`, writes `ZF` and
`SF` from the result and `OF` as 0, advances `pc` by 2, and changes nothing else. Of a register with
itself, andq leaves the register and xorq clears it, with codes 1 0 0. -/
def Obligations.BitwiseOperationsWriteResultAndCodes : Prop :=
  ∀ (s : State) (rA rB : RegId),
    encode (.andq rA rB) = [0x62, rA ++ rB] ∧ encode (.xorq rA rB) = [0x63, rA ++ rB] ∧
    (rA = RNONE ∨ rB = RNONE →
      exec (.andq rA rB) s = .next { s with stat := .ins } ∧
      exec (.xorq rA rB) s = .next { s with stat := .ins }) ∧
    ∀ a b : Word, s.readReg rA = some a → s.readReg rB = some b →
      (∃ t, exec (.andq rA rB) s = .next t ∧ t.readReg rB = some (b &&& a) ∧
        t.cc = { ZF := decide (b &&& a = 0), SF := (b &&& a).getLsbD 63, OF := false } ∧
        t.pc = s.pc + 2 ∧ RegsKeptExcept [rB] s t ∧ MemKept s t ∧ t.stat = .ok ∧
        t.steps = s.steps ∧ (rA = rB → t.readReg rB = s.readReg rB)) ∧
      (∃ t, exec (.xorq rA rB) s = .next t ∧ t.readReg rB = some (b ^^^ a) ∧
        t.cc = { ZF := decide (b ^^^ a = 0), SF := (b ^^^ a).getLsbD 63, OF := false } ∧
        t.pc = s.pc + 2 ∧ RegsKeptExcept [rB] s t ∧ MemKept s t ∧ t.stat = .ok ∧
        t.steps = s.steps ∧
        (rA = rB → t.readReg rB = some 0 ∧ t.cc = { ZF := true, SF := false, OF := false }))

/-- R111, R112, R115: after addq and subq the result is the exact sum or difference modulo 2^64, and `OF`
says exactly that the exact value lies outside −2^63 to 2^63 − 1. The minuend is decision D9. -/
def Obligations.OverflowCodeIsSignedOverflow : Prop :=
  ∀ (s : State) (rA rB : RegId) (a b : Word), s.readReg rA = some a → s.readReg rB = some b →
    (∃ t, exec (.addq rA rB) s = .next t ∧
      t.readReg rB = some (BitVec.ofInt 64 (b.toInt + a.toInt)) ∧
      (t.cc.OF = true ↔ b.toInt + a.toInt < -2 ^ 63 ∨ 2 ^ 63 - 1 < b.toInt + a.toInt)) ∧
    (∃ t, exec (.subq rA rB) s = .next t ∧
      t.readReg rB = some (BitVec.ofInt 64 (b.toInt - a.toInt)) ∧
      (t.cc.OF = true ↔ b.toInt - a.toInt < -2 ^ 63 ∨ 2 ^ 63 - 1 < b.toInt - a.toInt))

/-- R115: `OF = 1` with `ZF = 1` arises only from addq of 0x8000000000000000 and itself, and does arise
there; `ZF = 1` with `SF = 1` never. -/
def Obligations.ZeroWithOverflowOnlyFromDoublingMinimum : Prop :=
  ∀ (s : State) (rA rB : RegId) (a b : Word), s.readReg rA = some a → s.readReg rB = some b →
    ∀ row ∈ aluRows rA rB a b, ∃ t, exec row.1 s = .next t ∧
      (t.cc.OF = true ∧ t.cc.ZF = true ↔
        row.1 = .addq rA rB ∧ a = 0x8000000000000000 ∧ b = 0x8000000000000000) ∧
      ¬ (t.cc.ZF = true ∧ t.cc.SF = true)

/-- R90, last column (decisions D8 and D9): after `subq rA, rB` the conditional jumps are taken exactly by
the signed order of the old `x[rB]` against `x[rA]`, also where the subtraction overflows. -/
def Obligations.CompareThenJumpFollowsSignedOrder : Prop :=
  ∀ (s : State) (rA rB : RegId) (a b dest : Word), s.readReg rA = some a → s.readReg rB = some b →
    ∃ t, exec (.subq rA rB) s = .next t ∧
      ∀ row ∈ signedJumpRows dest a b,
        exec row.1 t = .next { t with pc := if row.2 then dest else t.pc + 9 }

/-- R120 to R127 with the predicate formulas of R90 (decision D8): each of the seven jumps completes; `pc`
is the target, unchecked, where the predicate holds and `pc + 9` where it does not; nothing else
changes. -/
def Obligations.JumpsSetPcWherePredicateHolds : Prop :=
  ∀ (s : State) (dest : Word), ∀ row ∈ jumpRows dest s.cc, ∃ t, exec row.1 s = .next t ∧
    t.pc = (if row.2 then dest else s.pc + 9) ∧
    RegsKeptExcept [] s t ∧ t.cc = s.cc ∧ MemKept s t ∧ t.stat = .ok ∧ t.steps = s.steps

/-- R121: jmp is the opcode byte 0x70, and sets `pc` to its target whatever the codes are; nothing else
changes. -/
def Obligations.JmpAlwaysSetsPc : Prop :=
  ∀ dest : Word,
    (∃ rest, encode (.jmp dest) = 0x70 :: rest) ∧
    ∀ (s : State) (c : CondCodes),
      exec (.jmp dest) { s with cc := c } = .next { s with cc := c, pc := dest, stat := .ok }

/-- R130: call stores `pc + 9` at `x[4] − 8`, moves the stack pointer there and sets `pc` to the target,
unchecked; with its frame; where the stack slot is not wholly inside memory it stops with `ADR`. -/
def Obligations.CallPushesReturnAddress : Prop :=
  ∀ (s : State) (dest : Word), s.mem.wf →
    (s.mem.Valid (s.rsp - 8) 8 →
      ∃ t, exec (.call dest) s = .next t ∧ WordStands (s.rsp - 8) (s.pc + 9) t.mem ∧
        MemKeptOutside (s.rsp - 8) s t ∧ t.rsp = s.rsp - 8 ∧ RegsKeptExcept [RSP] s t ∧
        t.pc = dest ∧ t.cc = s.cc ∧ t.stat = .ok ∧ t.steps = s.steps) ∧
    (¬ s.mem.Valid (s.rsp - 8) 8 → exec (.call dest) s = .next { s with stat := .adr })

/-- R131: ret loads `pc` from `x[4]` and adds 8 to the stack pointer; memory keeps the popped word; with
its frame; where the stack slot is not wholly inside memory it stops with `ADR`. -/
def Obligations.RetPopsIntoPc : Prop :=
  ∀ s : State,
    (s.mem.Valid s.rsp 8 →
      ∃ t, exec .ret s = .next t ∧ WordStands s.rsp t.pc s.mem ∧ t.rsp = s.rsp + 8 ∧
        RegsKeptExcept [RSP] s t ∧ t.cc = s.cc ∧ MemKept s t ∧ t.stat = .ok ∧
        t.steps = s.steps) ∧
    (¬ s.mem.Valid s.rsp 8 → exec .ret s = .next { s with stat := .adr })

/-- R135: pushq stores the value `x[rA]` had before the instruction at `x[4] − 8` and moves the stack
pointer there, for `%rsp` too (decision D22); with its frame; where the stack slot is not wholly inside
memory it stops with `ADR`. -/
def Obligations.PushqStoresOldValue : Prop :=
  ∀ (s : State) (rA : RegId) (a : Word), s.mem.wf → s.readReg rA = some a →
    (s.mem.Valid (s.rsp - 8) 8 →
      ∃ t, exec (.pushq rA) s = .next t ∧ WordStands (s.rsp - 8) a t.mem ∧
        MemKeptOutside (s.rsp - 8) s t ∧ t.rsp = s.rsp - 8 ∧ RegsKeptExcept [RSP] s t ∧
        t.pc = s.pc + 2 ∧ t.cc = s.cc ∧ t.stat = .ok ∧ t.steps = s.steps) ∧
    (¬ s.mem.Valid (s.rsp - 8) 8 → exec (.pushq rA) s = .next { s with stat := .adr })

/-- R136: popq loads the word at `x[4]` into `x[rA]` and adds 8 to the stack pointer; for `%rsp` itself the
result is the loaded word plus 8 (decision D23); with its frame; where the stack slot is not wholly
inside memory it stops with `ADR`. -/
def Obligations.PopqLoadsThenIncrements : Prop :=
  ∀ (s : State) (rA : RegId), rA ≠ RNONE →
    (s.mem.Valid s.rsp 8 →
      ∃ t v, exec (.popq rA) s = .next t ∧ WordStands s.rsp v s.mem ∧
        (rA ≠ RSP → t.readReg rA = some v ∧ t.rsp = s.rsp + 8) ∧
        (rA = RSP → t.rsp = v + 8) ∧
        RegsKeptExcept [rA, RSP] s t ∧ t.pc = s.pc + 2 ∧ t.cc = s.cc ∧ MemKept s t ∧
        t.stat = .ok ∧ t.steps = s.steps) ∧
    (¬ s.mem.Valid s.rsp 8 → exec (.popq rA) s = .next { s with stat := .adr })

/-! ## Pairs of instructions -/

/-- R132: where a call completes, a later ret that finds the pushed word and the stack pointer as the call
left them sets `pc` to the instruction after the call and the stack pointer to its old value. -/
def Obligations.CallThenRetReturns : Prop :=
  ∀ (s t u : State) (dest : Word), s.mem.wf → exec (.call dest) s = .next t → t.stat = .ok →
    u.mem.size = t.mem.size → u.rsp = t.rsp →
    (∀ j < 8, u.mem.byteAt (t.rsp.toNat + j) = t.mem.byteAt (t.rsp.toNat + j)) →
    ∃ w, exec .ret u = .next w ∧ w.pc = s.pc + 9 ∧ w.rsp = s.rsp ∧ w.stat = .ok

/-- R137: where pushq completes, a later popq into any register but `%rsp` that finds the pushed word and
the stack pointer as the push left them gives that register the pushed value and the stack pointer its
old one. -/
def Obligations.PushThenPopRestores : Prop :=
  ∀ (s t u : State) (rA rX : RegId) (a : Word), s.mem.wf → s.readReg rA = some a →
    exec (.pushq rA) s = .next t → t.stat = .ok → rX ≠ RNONE → rX ≠ RSP →
    u.mem.size = t.mem.size → u.rsp = t.rsp →
    (∀ j < 8, u.mem.byteAt (t.rsp.toNat + j) = t.mem.byteAt (t.rsp.toNat + j)) →
    ∃ w, exec (.popq rX) u = .next w ∧ w.readReg rX = some a ∧ w.rsp = s.rsp ∧ w.stat = .ok

/-- R43, decision D31: a store into the next instruction is seen by the next fetch: where the stored word
begins with the bytes of an instruction, the next step runs that instruction. -/
def Obligations.StoreIsSeenByNextFetch : Prop :=
  ∀ (s : State) (rA rB x : RegId) (d a : Word) (i : Instr) (rest : List Byte), s.mem.wf →
    s.readReg rA = some a → bytesOf a = encodeWith x i ++ rest →
    effectiveAddress rB d s = s.pc + 10 → s.mem.Valid (s.pc + 10) 8 →
    ∃ t, exec (.rmmovq rA rB d) s = .next t ∧
      step t = exec i { t with steps := t.steps + 1 }

/-! ## Rules about all instructions -/

/-- R14: an instruction changes no register but those the table lets it write. -/
def Obligations.RegistersChangeOnlyAsTabled : Prop :=
  ∀ (i : Instr) (s t : State), exec i s = .next t → RegsKeptExcept (mayWrite i) s t

/-- R24, R32: only rmmovq, pushq and call change memory, and no step changes its capacity. -/
def Obligations.OnlyStoringInstructionsChangeMemory : Prop :=
  (∀ (i : Instr) (s t : State), exec i s = .next t → stores i = false → MemKept s t) ∧
  ∀ s t : State, step s = .next t → t.mem.size = s.mem.size

/-- R16, R50 (decision D6 for push and pop): every instruction that completes, but for jumps, call and ret,
advances `pc` by its length. -/
def Obligations.PcAdvancesByLength : Prop :=
  ∀ (i : Instr) (s t : State), setsPc i = false → exec i s = .next t → t.stat = .ok →
    t.pc = s.pc + BitVec.ofNat 64 (encode i).length

/-- R19: who writes and who reads the condition codes. The ALU writes all three, whatever they were; no
other instruction writes them; classes 2 and 7 read them through their predicate alone; no other
instruction's effect depends on them; a step that ends in `ADR` or `INS` leaves them. -/
def Obligations.CodesWrittenByAluReadThroughPredicates : Prop :=
  (∀ (i : Instr) (s t : State), exec i s = .next t → isAlu i = false → t.cc = s.cc) ∧
  (∀ (i : Instr) (s t : State) (c : CondCodes), exec i s = .next t → isAlu i = true →
    (t.stat = .ok → exec i { s with cc := c } = .next t) ∧
    (t.stat ≠ .ok → exec i { s with cc := c } = .next { t with cc := c })) ∧
  (∀ (i : Instr) (s t : State) (c : CondCodes), exec i s = .next t → isAlu i = false →
    (∀ p, predicateOf i = some p → condHolds p c = condHolds p s.cc) →
    exec i { s with cc := c } = .next { t with cc := c }) ∧
  (∀ s t : State, step s = .next t → t.stat = .adr ∨ t.stat = .ins → t.cc = s.cc)

/-- R21, R22: no instruction reads the status or the step counter, and none writes the counter. -/
def Obligations.StatusAndStepsAreNotObservable : Prop :=
  ∀ (i : Instr) (s : State) (x : Status) (n : Nat), ∃ t, exec i s = .next t ∧ t.steps = s.steps ∧
    ∃ u, exec i { s with stat := x, steps := n } = .next u ∧
      u.regs = t.regs ∧ u.pc = t.pc ∧ u.cc = t.cc ∧ u.mem = t.mem ∧ u.steps = n ∧
      (u.stat = t.stat)

/-! ## Registers and memory -/

/-- R7, R11: a register reads as last written, and writing one leaves the other fourteen alone. -/
def Obligations.RegisterReadsAsLastWritten : Prop :=
  ∀ (s : State) (r r' : RegId) (v : Word),
    (r ≠ RNONE → (s.writeReg r v).readReg r = some v) ∧
    (r' ≠ r → (s.writeReg r v).readReg r' = s.readReg r') ∧
    (s.readReg r = none ↔ r = RNONE)

/-- R30, R31, R33, R34, R37 (decisions D14 to D16): an eight-byte write succeeds exactly where all eight
bytes lie inside memory, at any alignment; it places the bytes little-endian and leaves every other
byte alone; a read there gives the value back; writing the same value again changes nothing. -/
def Obligations.WordWrittenReadsBack : Prop :=
  ∀ (m : Memory) (a v : Word), m.wf →
    (a.toNat + 8 ≤ m.size → ∃ m', m.write8 a v = some m' ∧ WordStands a v m' ∧
      (∀ k, k < a.toNat ∨ a.toNat + 8 ≤ k → m'.byteAt k = m.byteAt k) ∧
      m'.read8 a = some v ∧ m'.write8 a v = some m' ∧ m'.size = m.size ∧ m'.wf) ∧
    (m.size < a.toNat + 8 → m.write8 a v = none ∧ m.read8 a = none)

/-- The model's own memory form (log entry 3): canonical memories of one capacity with the same bytes are
equal, so equal memories are equal data. -/
def Obligations.CanonicalMemoryIsDeterminedByItsBytes : Prop :=
  ∀ m m' : Memory, m.wf → m'.wf → m.size = m'.size → (∀ k, m.byteAt k = m'.byteAt k) → m = m'

/-! ## Runs -/

/-- R165, decision D27: a run takes a step while the status is `OK` and the limit is not reached, and none
otherwise; the step that stops is counted; the limit is never passed; a run that ends in `OK` has taken
every step up to the limit. -/
def Obligations.RunCountsStepsAgainstLimit : Prop :=
  ∀ (n : Nat) (s : State), s.steps ≤ n →
    (s.stat ≠ .ok ∨ s.steps = n → run n s = s) ∧
    (s.stat = .ok → s.steps < n →
      ∃ t, step s = .next t ∧ t.steps = s.steps + 1 ∧ run n s = run n t) ∧
    s.steps ≤ (run n s).steps ∧ (run n s).steps ≤ n ∧
    ((run n s).stat = .ok → (run n s).steps = n)

/-- R166, decision D27: a run may be continued: running to one limit and then to a larger one is running to
the larger one at once. A run of a stopped core, to whatever limit, takes no step and leaves the state,
and with it the status, as it is. -/
def Obligations.RunCanBeContinued : Prop :=
  (∀ (m n : Nat) (s : State), m ≤ n → run n (run m s) = run n s) ∧
  ∀ (n : Nat) (s : State), s.stat ≠ .ok → run n s = s

/-- R168, decisions D29 and D30: the report gives the status, the `pc`, the condition codes packed with
zero in bit 2, sign in bit 1 and overflow in bit 0, and exactly the registers, and exactly the aligned
eight-byte words inside memory, whose value differs from the snapshot, with the old and the new value. -/
def Obligations.ReportListsExactlyTheChanges : Prop :=
  ∀ s0 s : State, s0.mem.size = s.mem.size →
    (report s0 s).status = s.stat ∧ (report s0 s).pc = s.pc ∧
    (report s0 s).codes.getLsbD 2 = s.cc.ZF ∧ (report s0 s).codes.getLsbD 1 = s.cc.SF ∧
    (report s0 s).codes.getLsbD 0 = s.cc.OF ∧
    (∀ c, c ∈ (report s0 s).registers ↔
      s0.readReg c.place = some c.before ∧ s.readReg c.place = some c.after ∧
      c.before ≠ c.after) ∧
    (∀ c, c ∈ (report s0 s).words ↔
      8 ∣ c.place ∧ c.place + 8 ≤ s.mem.size ∧
      (∀ j < 8, s0.mem.byteAt (c.place + j) = c.before.extractLsb' (8 * j) 8) ∧
      (∀ j < 8, s.mem.byteAt (c.place + j) = c.after.extractLsb' (8 * j) 8) ∧
      c.before ≠ c.after)

/-! ## The assembler -/

/-- R69, R70: instructions one after another assemble to their encodings one after another, from address
0. -/
def Obligations.InstructionsAssembleToTheirEncodings : Prop :=
  ∀ is : List Instr, assemble (block is) = .ok (is.flatMap encode)

/-- R68: a symbol in a load-immediate, jump or call is replaced by the absolute address its label is bound
to, whether the label stands before or after the use. -/
def Obligations.SymbolStandsForLabelAddress : Prop :=
  ∀ (rB : RegId), ∀ f ∈ symbolForms rB, ∀ (n : SymbolName) (before between : List Instr),
    assemble (block before ++ { label := some n, item := none } :: block between ++
        [{ label := none, item := some (.instr (f 0) (some n)) }]) =
      .ok (before.flatMap encode ++ between.flatMap encode ++
        encode (f (BitVec.ofNat 64 (before.flatMap encode).length))) ∧
    assemble (block before ++ { label := none, item := some (.instr (f 0) (some n)) } ::
        block between ++ [{ label := some n, item := none }]) =
      .ok (before.flatMap encode ++
        encode (f (BitVec.ofNat 64 ((before.flatMap encode).length + (encode (f 0)).length +
          (between.flatMap encode).length))) ++ between.flatMap encode)

/-- R64, R68: a label defined twice, or a symbol used and never defined, gives no image. -/
def Obligations.BadSymbolsGiveNoImage : Prop :=
  (∀ (xs ys zs : List SourceLine) (n : SymbolName) (it it' : Option Item),
    ∃ e, assemble (xs ++ { label := some n, item := it } :: ys ++
      { label := some n, item := it' } :: zs) = .error e) ∧
  (∀ (lines : List SourceLine) (ln : SourceLine) (n : SymbolName), ln ∈ lines → Uses n ln →
    (∀ l ∈ lines, l.label ≠ some n) → ∃ e, assemble lines = .error e)
end

