-- ==== Sys2Proof/Laws/Bytes.lean ====
section
/-! SUPPORT. Little-endian words and nibbles: taking apart what was put together, and back. -/

namespace Sys2Proof.Machine

@[simp] theorem bytesOf_length (v : Word) : (bytesOf v).length = 8 := rfl

theorem byteOf_getLsbD (v : Word) (k j : Nat) :
    (byteOf v k).getLsbD j = (decide (j < 8) && v.getLsbD (8 * k + j)) := by
  simp [byteOf, BitVec.getLsbD_extractLsb']

/-- The bits of a word of eight bytes. -/
theorem wordOf_byteOf (v : Word) :
    wordOf (byteOf v 0) (byteOf v 1) (byteOf v 2) (byteOf v 3) (byteOf v 4) (byteOf v 5)
      (byteOf v 6) (byteOf v 7) = v := by
  apply BitVec.eq_of_getLsbD_eq
  intro j hj
  simp only [wordOf, BitVec.getLsbD_append, byteOf_getLsbD]
  repeat' split
  all_goals first
    | omega
    | (rw [decide_eq_true (by omega), Bool.true_and]; congr 1; omega)

theorem byteOf_wordOf_bit (b0 b1 b2 b3 b4 b5 b6 b7 : Byte) (k j : Nat) (hj : j < 8) :
    (byteOf (wordOf b0 b1 b2 b3 b4 b5 b6 b7) k).getLsbD j =
      (wordOf b0 b1 b2 b3 b4 b5 b6 b7).getLsbD (8 * k + j) := by
  rw [byteOf_getLsbD, decide_eq_true hj, Bool.true_and]

theorem bytesOf_wordOf (b0 b1 b2 b3 b4 b5 b6 b7 : Byte) :
    bytesOf (wordOf b0 b1 b2 b3 b4 b5 b6 b7) = [b0, b1, b2, b3, b4, b5, b6, b7] := by
  unfold bytesOf
  congr 1
  all_goals try congr 1
  all_goals try congr 1
  all_goals try congr 1
  all_goals try congr 1
  all_goals try congr 1
  all_goals try congr 1
  all_goals try congr 1
  all_goals
    apply BitVec.eq_of_getLsbD_eq
    intro j hj
    rw [byteOf_wordOf_bit _ _ _ _ _ _ _ _ _ _ hj]
    simp only [wordOf, BitVec.getLsbD_append]
    repeat' split
    all_goals first
      | omega
      | (congr 1; omega)

@[simp] theorem wordAtFront_bytesOf (v : Word) (rest : List Byte) :
    wordAtFront (bytesOf v ++ rest) = some v := by
  show some _ = _
  rw [wordOf_byteOf]

/-- A word stands at the front of a list exactly where the list begins with its bytes. -/
theorem wordAtFront_eq_some_iff (bs : List Byte) (v : Word) :
    wordAtFront bs = some v ↔ ∃ rest, bs = bytesOf v ++ rest := by
  constructor
  · intro h
    match bs, h with
    | b0 :: b1 :: b2 :: b3 :: b4 :: b5 :: b6 :: b7 :: rest, h =>
      have hv : wordOf b0 b1 b2 b3 b4 b5 b6 b7 = v := Option.some.inj h
      exact ⟨rest, by rw [← hv, bytesOf_wordOf]; rfl⟩
  · rintro ⟨rest, rfl⟩; simp

theorem wordAtFront_eq_none_iff (bs : List Byte) : wordAtFront bs = none ↔ bs.length < 8 := by
  match bs with
  | [] | [_] | [_, _] | [_, _, _] | [_, _, _, _] | [_, _, _, _, _] | [_, _, _, _, _, _]
  | [_, _, _, _, _, _, _] => simp [wordAtFront]
  | _ :: _ :: _ :: _ :: _ :: _ :: _ :: _ :: _ => simp [wordAtFront]

@[simp] theorem highNibble_regByte (rA rB : RegId) : highNibble (regByte rA rB) = rA := by
  apply BitVec.eq_of_getLsbD_eq
  intro j hj
  rw [highNibble, regByte, BitVec.getLsbD_extractLsb', decide_eq_true hj, Bool.true_and,
    BitVec.getLsbD_append, if_neg (by omega)]
  congr 1; omega

@[simp] theorem lowNibble_regByte (rA rB : RegId) : lowNibble (regByte rA rB) = rB := by
  apply BitVec.eq_of_getLsbD_eq
  intro j hj
  rw [lowNibble, regByte, BitVec.getLsbD_extractLsb', decide_eq_true hj, Bool.true_and,
    BitVec.getLsbD_append, if_pos (by omega)]
  congr 1; omega

theorem regByte_nibbles (b : Byte) : regByte (highNibble b) (lowNibble b) = b := by
  apply BitVec.eq_of_getLsbD_eq
  intro j hj
  simp only [highNibble, lowNibble, regByte, BitVec.getLsbD_extractLsb', BitVec.getLsbD_append]
  split
  · next h => simp [h]
  · next h => rw [decide_eq_true (by omega), Bool.true_and]; congr 1; omega

end Sys2Proof.Machine
end

