-- ==== Sys2Proof/Laws/Memory.lean ====
section
/-! SUPPORT. Main memory: what reading a byte gives after a write, and that every memory operation
keeps the canonical form. -/

namespace Sys2Proof.Machine

/-- Addresses strictly rising. -/
abbrev Rising (cs : List Host.Cell) : Prop := cs.Pairwise fun p q => p.1 < q.1

/-! ### Cells -/

theorem cellAt_of_lt {k : Nat} {cs : List Host.Cell} (h : ∀ c ∈ cs, k < c.1) :
    cellAt k cs = Config.unlistedByte := by
  induction cs with
  | nil => rfl
  | cons c cs ih =>
    have hc : c.1 ≠ k := by have := h c (by simp); omega
    rw [cellAt, if_neg hc]
    exact ih fun d hd => h d (by simp [hd])

theorem cellAt_setCell_other {k j : Nat} (b : Byte) (h : j ≠ k) (cs : List Host.Cell) :
    cellAt j (setCell k b cs) = cellAt j cs := by
  induction cs with
  | nil => unfold setCell; split <;> simp [cellAt, Ne.symm h]
  | cons c cs ih =>
    unfold setCell
    split
    · simp [cellAt, ih]
    · split
      · next hk => split <;> simp [cellAt, hk, Ne.symm h]
      · split <;> simp [cellAt, Ne.symm h]

theorem cellAt_setCell_self {k : Nat} (b : Byte) {cs : List Host.Cell} (hs : Rising cs) :
    cellAt k (setCell k b cs) = b := by
  induction cs with
  | nil => unfold setCell; split <;> simp_all [cellAt]
  | cons c cs ih =>
    obtain ⟨hc, hcs⟩ := List.pairwise_cons.mp hs
    unfold setCell
    split
    · next hlt => rw [cellAt, if_neg (by omega)]; exact ih hcs
    · split
      · next hlt heq =>
        split
        · next hb => rw [hb]; exact cellAt_of_lt fun d hd => by have := hc d hd; omega
        · simp [cellAt]
      · next hlt heq =>
        split
        · next hb =>
          rw [hb]
          refine cellAt_of_lt fun d hd => ?_
          rcases List.mem_cons.mp hd with rfl | hd
          · omega
          · have := hc d hd; omega
        · simp [cellAt]

theorem mem_setCell {k : Nat} {b : Byte} {cs : List Host.Cell} {c : Host.Cell}
    (h : c ∈ setCell k b cs) : c ∈ cs ∨ (c = (k, b) ∧ b ≠ Config.unlistedByte) := by
  induction cs with
  | nil => unfold setCell at h; split at h <;> simp_all
  | cons d ds ih =>
    unfold setCell at h
    split at h
    · rcases List.mem_cons.mp h with rfl | h
      · simp
      · rcases ih h with h | h <;> simp [h]
    · split at h <;> split at h <;> simp_all <;> tauto

theorem rising_setCell (k : Nat) (b : Byte) {cs : List Host.Cell} (hs : Rising cs) :
    Rising (setCell k b cs) := by
  induction cs with
  | nil => unfold setCell; split <;> simp [Rising]
  | cons c cs ih =>
    obtain ⟨hc, hcs⟩ := List.pairwise_cons.mp hs
    unfold setCell
    split
    · next hlt =>
      refine List.pairwise_cons.mpr ⟨fun d hd => ?_, ih hcs⟩
      rcases mem_setCell hd with hd | ⟨rfl, -⟩
      · exact hc d hd
      · exact hlt
    · split
      · next hlt heq =>
        split
        · exact hcs
        · exact List.pairwise_cons.mpr ⟨fun d hd => by have := hc d hd; simp; omega, hcs⟩
      · next hlt heq =>
        split
        · exact hs
        · refine List.pairwise_cons.mpr ⟨fun d hd => ?_, hs⟩
          rcases List.mem_cons.mp hd with rfl | hd
          · simp; omega
          · have := hc d hd; simp; omega

/-- Two canonical lists that read alike at every address are the same list. -/
theorem cells_eq_of_cellAt_eq {cs ds : List Host.Cell} (hc : Rising cs) (hd : Rising ds)
    (nc : ∀ c ∈ cs, c.2 ≠ Config.unlistedByte) (nd : ∀ c ∈ ds, c.2 ≠ Config.unlistedByte)
    (h : ∀ k, cellAt k cs = cellAt k ds) : cs = ds := by
  induction cs generalizing ds with
  | nil =>
    cases ds with
    | nil => rfl
    | cons d ds => exact absurd (by simpa [cellAt] using (h d.1).symm) (nd d (by simp))
  | cons c cs ih =>
    obtain ⟨hc1, hc2⟩ := List.pairwise_cons.mp hc
    cases ds with
    | nil => exact absurd (by simpa [cellAt] using h c.1) (nc c (by simp))
    | cons d ds =>
      obtain ⟨hd1, hd2⟩ := List.pairwise_cons.mp hd
      have hcd : c.1 = d.1 := by
        rcases Nat.lt_trichotomy c.1 d.1 with hlt | heq | hlt
        · have hz : cellAt c.1 (d :: ds) = Config.unlistedByte := cellAt_of_lt fun e he => by
            rcases List.mem_cons.mp he with rfl | he
            · exact hlt
            · have := hd1 e he; omega
          have := h c.1
          rw [hz, cellAt, if_pos rfl] at this
          exact absurd this (nc c (by simp))
        · exact heq
        · have hz : cellAt d.1 (c :: cs) = Config.unlistedByte := cellAt_of_lt fun e he => by
            rcases List.mem_cons.mp he with rfl | he
            · exact hlt
            · have := hc1 e he; omega
          have := h d.1
          rw [hz, cellAt, if_pos rfl] at this
          exact absurd this.symm (nd d (by simp))
      have hv : c.2 = d.2 := by
        have := h c.1
        rwa [cellAt, if_pos rfl, cellAt, if_pos hcd.symm] at this
      have hcd' : c = d := Prod.ext hcd hv
      subst hcd'
      congr 1
      refine ih hc2 hd2 (fun e he => nc e (by simp [he])) (fun e he => nd e (by simp [he])) fun k => ?_
      by_cases hk : c.1 = k
      · rw [cellAt_of_lt fun e he => by have := hc1 e he; omega,
          cellAt_of_lt fun e he => by have := hd1 e he; omega]
      · have := h k
        rwa [cellAt, if_neg hk, cellAt, if_neg hk] at this

/-! ### Bytes -/

@[simp] theorem setByte_size (m : Memory) (k : Nat) (b : Byte) : (m.setByte k b).size = m.size := rfl

theorem byteAt_setByte_other (m : Memory) {k j : Nat} (b : Byte) (h : j ≠ k) :
    (m.setByte k b).byteAt j = m.byteAt j := cellAt_setCell_other b h m.cells

theorem byteAt_setByte_self {m : Memory} (hm : m.wf) (k : Nat) (b : Byte) :
    (m.setByte k b).byteAt k = b := cellAt_setCell_self b hm.2.1

theorem wf_setByte {m : Memory} (hm : m.wf) {k : Nat} (hk : k < m.size) (b : Byte) :
    (m.setByte k b).wf := by
  refine ⟨hm.1, rising_setCell k b hm.2.1, fun c hc => ?_⟩
  rcases mem_setCell hc with h | ⟨rfl, hb⟩
  · exact hm.2.2 c h
  · exact ⟨hk, hb⟩

/-- Canonical memories of one capacity with the same bytes are the same memory. -/
theorem Memory.ext_bytes {m m' : Memory} (h : m.wf) (h' : m'.wf) (hsize : m.size = m'.size)
    (hb : ∀ k, m.byteAt k = m'.byteAt k) : m = m' := by
  have hcells := cells_eq_of_cellAt_eq h.2.1 h'.2.1 (fun c hc => (h.2.2 c hc).2)
    (fun c hc => (h'.2.2 c hc).2) hb
  cases m; cases m'; simp_all

/-! ### Consecutive bytes -/

@[simp] theorem storeBytes_size (m : Memory) (k : Nat) (bs : List Byte) :
    (m.storeBytes k bs).size = m.size := by
  induction bs generalizing m k with
  | nil => rfl
  | cons b bs ih => rw [Memory.storeBytes, ih]; rfl

theorem byteAt_storeBytes_outside (m : Memory) {k j : Nat} (bs : List Byte)
    (h : j < k ∨ k + bs.length ≤ j) : (m.storeBytes k bs).byteAt j = m.byteAt j := by
  induction bs generalizing m k with
  | nil => rfl
  | cons b bs ih =>
    simp only [List.length_cons] at h
    rw [Memory.storeBytes, ih _ (by omega), byteAt_setByte_other _ _ (by omega)]

theorem wf_storeBytes {m : Memory} (hm : m.wf) {k : Nat} {bs : List Byte}
    (h : k + bs.length ≤ m.size) : (m.storeBytes k bs).wf := by
  induction bs generalizing m k with
  | nil => exact hm
  | cons b bs ih =>
    simp only [List.length_cons] at h
    exact ih (wf_setByte hm (by omega) b) (by simp; omega)

theorem byteAt_storeBytes_inside {m : Memory} (hm : m.wf) {k j : Nat} {bs : List Byte}
    (hs : k + bs.length ≤ m.size) (hj : j < bs.length) :
    (m.storeBytes k bs).byteAt (k + j) = bs[j] := by
  induction bs generalizing m k j with
  | nil => simp at hj
  | cons b bs ih =>
    simp only [List.length_cons] at hs hj
    rw [Memory.storeBytes]
    cases j with
    | zero =>
      rw [byteAt_storeBytes_outside _ _ (by omega), Nat.add_zero, byteAt_setByte_self hm]; rfl
    | succ j =>
      have := ih (m := m.setByte k b) (k := k + 1) (j := j) (wf_setByte hm (by omega) b)
        (by simp; omega) (by omega)
      rw [show k + (j + 1) = k + 1 + j by omega, this]; rfl

theorem wf_storeInside {m : Memory} (hm : m.wf) (k : Nat) (bs : List Byte) :
    (m.storeInside k bs).wf := by
  unfold Memory.storeInside
  by_cases hk : k ≤ m.size
  · exact wf_storeBytes hm (by rw [List.length_take]; omega)
  · rw [show m.size - k = 0 by omega]; exact hm

theorem wf_blank {size : Nat} (h : 1 ≤ size ∧ size < 2 ^ 63) : (Memory.blank size).wf :=
  ⟨h, by simp [Memory.blank], by simp [Memory.blank]⟩

/-! ### The accessors -/

theorem read1_eq_some_iff {m : Memory} {a : Word} {b : Byte} :
    m.read1 a = some b ↔ m.Valid a 1 ∧ m.byteAt a.toNat = b := by
  unfold Memory.read1; split <;> simp_all

theorem read1_eq_none_iff {m : Memory} {a : Word} : m.read1 a = none ↔ ¬ m.Valid a 1 := by
  unfold Memory.read1; split <;> simp_all

theorem read8_eq_none_iff {m : Memory} {a : Word} : m.read8 a = none ↔ ¬ m.Valid a 8 := by
  unfold Memory.read8; split <;> simp_all

theorem byteOf_eq_bytesOf (v : Word) {j : Nat} (hj : j < 8) : (bytesOf v)[j]? = some (byteOf v j) := by
  have : j = 0 ∨ j = 1 ∨ j = 2 ∨ j = 3 ∨ j = 4 ∨ j = 5 ∨ j = 6 ∨ j = 7 := by omega
  rcases this with rfl | rfl | rfl | rfl | rfl | rfl | rfl | rfl <;> rfl

/-- What `read8` answers: the word whose byte `j` is the byte at `a + j` (R30). -/
theorem read8_eq_some_iff {m : Memory} {a v : Word} :
    m.read8 a = some v ↔ m.Valid a 8 ∧ ∀ j < 8, m.byteAt (a.toNat + j) = byteOf v j := by
  unfold Memory.read8
  split
  · next hv =>
    simp only [Option.some.injEq, hv, true_and]
    constructor
    · rintro rfl j hj
      have hb := bytesOf_wordOf (m.byteAt a.toNat) (m.byteAt (a.toNat + 1)) (m.byteAt (a.toNat + 2))
        (m.byteAt (a.toNat + 3)) (m.byteAt (a.toNat + 4)) (m.byteAt (a.toNat + 5))
        (m.byteAt (a.toNat + 6)) (m.byteAt (a.toNat + 7))
      have h1 := byteOf_eq_bytesOf (wordOf (m.byteAt a.toNat) (m.byteAt (a.toNat + 1))
        (m.byteAt (a.toNat + 2)) (m.byteAt (a.toNat + 3)) (m.byteAt (a.toNat + 4))
        (m.byteAt (a.toNat + 5)) (m.byteAt (a.toNat + 6)) (m.byteAt (a.toNat + 7))) hj
      rw [hb] at h1
      have : j = 0 ∨ j = 1 ∨ j = 2 ∨ j = 3 ∨ j = 4 ∨ j = 5 ∨ j = 6 ∨ j = 7 := by omega
      rcases this with rfl | rfl | rfl | rfl | rfl | rfl | rfl | rfl <;> exact Option.some.inj h1
    · intro h
      have h0 := h 0 (by omega)
      rw [Nat.add_zero] at h0
      rw [h0, h 1 (by omega), h 2 (by omega), h 3 (by omega), h 4 (by omega),
        h 5 (by omega), h 6 (by omega), h 7 (by omega)]
      exact wordOf_byteOf v
  · next hv => simp [hv]

theorem write8_eq_some_iff {m m' : Memory} {a v : Word} :
    m.write8 a v = some m' ↔ m.Valid a 8 ∧ m' = m.storeBytes a.toNat (bytesOf v) := by
  unfold Memory.write8; split <;> simp_all [eq_comm]

theorem write8_eq_none_iff {m : Memory} {a v : Word} : m.write8 a v = none ↔ ¬ m.Valid a 8 := by
  unfold Memory.write8; split <;> simp_all

theorem write8_size {m m' : Memory} {a v : Word} (h : m.write8 a v = some m') :
    m'.size = m.size := by
  obtain ⟨-, rfl⟩ := write8_eq_some_iff.mp h; simp

theorem wf_write8 {m m' : Memory} {a v : Word} (hm : m.wf) (h : m.write8 a v = some m') :
    m'.wf := by
  obtain ⟨hv, rfl⟩ := write8_eq_some_iff.mp h
  exact wf_storeBytes hm (by simpa using hv)

theorem byteAt_write8_outside {m m' : Memory} {a v : Word} (h : m.write8 a v = some m') {j : Nat}
    (hj : j < a.toNat ∨ a.toNat + 8 ≤ j) : m'.byteAt j = m.byteAt j := by
  obtain ⟨-, rfl⟩ := write8_eq_some_iff.mp h
  exact byteAt_storeBytes_outside _ _ (by simpa using hj)

theorem byteAt_write8_inside {m m' : Memory} {a v : Word} (hm : m.wf)
    (h : m.write8 a v = some m') {j : Nat} (hj : j < 8) :
    m'.byteAt (a.toNat + j) = byteOf v j := by
  obtain ⟨hv, rfl⟩ := write8_eq_some_iff.mp h
  rw [byteAt_storeBytes_inside hm (by simpa using hv) (by simpa using hj)]
  exact Option.some.inj ((List.getElem?_eq_getElem _).symm.trans (byteOf_eq_bytesOf v hj))

/-- A read after a write to the same place gives the value written. -/
theorem read8_write8_self {m m' : Memory} {a v : Word} (hm : m.wf) (h : m.write8 a v = some m') :
    m'.read8 a = some v :=
  read8_eq_some_iff.mpr ⟨by rw [Memory.Valid, write8_size h]; exact (write8_eq_some_iff.mp h).1,
    fun _ hj => byteAt_write8_inside hm h hj⟩

/-! ### Reset -/

theorem wf_resetWith {size : Nat} {image : List Byte} {s : State}
    (h : resetWith size image = some s) : s.mem.wf := by
  unfold resetWith at h
  split at h
  · next hs =>
    obtain rfl := Option.some.inj h
    exact wf_storeBytes (wf_blank ⟨hs.1, hs.2.1⟩) (by simpa [Memory.blank] using hs.2.2)
  · simp at h

theorem reset_mem_wf : State.reset.mem.wf := by decide

end Sys2Proof.Machine
end

