-- ==== Sys2Proof/Laws/State.lean ====
section
/-! SUPPORT. One lemma per field per update of the state, and the register file: what reading gives
after a write. -/

namespace Sys2Proof.Machine

variable (s : State) (r r' : RegId) (v : Word)

/-! ### Which identifiers name a register -/

theorem toNat_lt_of_named {r : RegId} (h : r ≠ RNONE) : r.toNat < 15 := by
  have h1 : r.toNat ≠ 15 := fun e => h (BitVec.eq_of_toNat_eq e)
  omega

theorem named_of_toNat_lt {r : RegId} (h : r.toNat < 15) : r ≠ RNONE := by
  rintro rfl; exact absurd h (by decide)

theorem readReg_named {r : RegId} (h : r ≠ RNONE) :
    s.readReg r = some (s.regs[r.toNat]'(toNat_lt_of_named h)) := by
  simp [State.readReg, toNat_lt_of_named h]

@[simp] theorem readReg_RNONE : s.readReg RNONE = none := rfl

theorem readReg_eq_none_iff : s.readReg r = none ↔ r = RNONE := by
  constructor
  · intro h; by_contra hr; simp [readReg_named s hr] at h
  · rintro rfl; rfl

theorem named_of_readReg {s : State} {r : RegId} {v : Word} (h : s.readReg r = some v) :
    r ≠ RNONE := by
  rintro rfl; simp at h

theorem exists_readReg {r : RegId} (h : r ≠ RNONE) : ∃ v, s.readReg r = some v :=
  ⟨_, readReg_named s h⟩

theorem readReg_RSP : s.readReg RSP = some s.rsp := rfl

/-! ### Writing a register -/

@[simp] theorem writeReg_pc : (s.writeReg r v).pc = s.pc := by unfold State.writeReg; split <;> rfl
@[simp] theorem writeReg_cc : (s.writeReg r v).cc = s.cc := by unfold State.writeReg; split <;> rfl
@[simp] theorem writeReg_mem : (s.writeReg r v).mem = s.mem := by unfold State.writeReg; split <;> rfl
@[simp] theorem writeReg_stat : (s.writeReg r v).stat = s.stat := by
  unfold State.writeReg; split <;> rfl
@[simp] theorem writeReg_steps : (s.writeReg r v).steps = s.steps := by
  unfold State.writeReg; split <;> rfl

theorem readReg_writeReg_self {r : RegId} (h : r ≠ RNONE) :
    (s.writeReg r v).readReg r = some v := by
  simp [State.writeReg, State.readReg, toNat_lt_of_named h]

theorem readReg_writeReg_other {r r' : RegId} (h : r' ≠ r) :
    (s.writeReg r v).readReg r' = s.readReg r' := by
  have hn : r.toNat ≠ r'.toNat := fun e => h (BitVec.eq_of_toNat_eq e.symm)
  unfold State.writeReg State.readReg
  split
  · split
    · simp [hn]
    · rfl
  · rfl

@[simp] theorem setRsp_pc : (s.setRsp v).pc = s.pc := rfl
@[simp] theorem setRsp_cc : (s.setRsp v).cc = s.cc := rfl
@[simp] theorem setRsp_mem : (s.setRsp v).mem = s.mem := rfl
@[simp] theorem setRsp_stat : (s.setRsp v).stat = s.stat := rfl
@[simp] theorem setRsp_steps : (s.setRsp v).steps = s.steps := rfl

@[simp] theorem setRsp_rsp : (s.setRsp v).rsp = v := by
  have h := readReg_writeReg_self s v (r := RSP) (by decide)
  rw [readReg_RSP] at h
  exact Option.some.inj h

theorem readReg_setRsp_other {r : RegId} (h : r ≠ RSP) : (s.setRsp v).readReg r = s.readReg r :=
  readReg_writeReg_other s v h

theorem readReg_setRsp_self : (s.setRsp v).readReg RSP = some v :=
  readReg_writeReg_self s v (by decide)

theorem rsp_writeReg_other {r : RegId} (h : r ≠ RSP) : (s.writeReg r v).rsp = s.rsp := by
  have h' := readReg_writeReg_other s v (r := r) (r' := RSP) (Ne.symm h)
  rw [readReg_RSP, readReg_RSP] at h'
  exact Option.some.inj h'

/-! ### The other updates, field by field -/

@[simp] theorem setCodes_regs (c : CondCodes) : (s.setCodes c).regs = s.regs := rfl
@[simp] theorem setCodes_pc (c : CondCodes) : (s.setCodes c).pc = s.pc := rfl
@[simp] theorem setCodes_cc (c : CondCodes) : (s.setCodes c).cc = c := rfl
@[simp] theorem setCodes_mem (c : CondCodes) : (s.setCodes c).mem = s.mem := rfl
@[simp] theorem setCodes_stat (c : CondCodes) : (s.setCodes c).stat = s.stat := rfl
@[simp] theorem setCodes_steps (c : CondCodes) : (s.setCodes c).steps = s.steps := rfl
@[simp] theorem setCodes_rsp (c : CondCodes) : (s.setCodes c).rsp = s.rsp := rfl
@[simp] theorem readReg_setCodes (c : CondCodes) : (s.setCodes c).readReg r = s.readReg r := rfl

@[simp] theorem setMem_regs (m : Memory) : (s.setMem m).regs = s.regs := rfl
@[simp] theorem setMem_pc (m : Memory) : (s.setMem m).pc = s.pc := rfl
@[simp] theorem setMem_cc (m : Memory) : (s.setMem m).cc = s.cc := rfl
@[simp] theorem setMem_mem (m : Memory) : (s.setMem m).mem = m := rfl
@[simp] theorem setMem_stat (m : Memory) : (s.setMem m).stat = s.stat := rfl
@[simp] theorem setMem_steps (m : Memory) : (s.setMem m).steps = s.steps := rfl
@[simp] theorem setMem_rsp (m : Memory) : (s.setMem m).rsp = s.rsp := rfl
@[simp] theorem readReg_setMem (m : Memory) : (s.setMem m).readReg r = s.readReg r := rfl

@[simp] theorem tick_regs : s.tick.regs = s.regs := rfl
@[simp] theorem tick_pc : s.tick.pc = s.pc := rfl
@[simp] theorem tick_cc : s.tick.cc = s.cc := rfl
@[simp] theorem tick_mem : s.tick.mem = s.mem := rfl
@[simp] theorem tick_stat : s.tick.stat = s.stat := rfl
@[simp] theorem tick_steps : s.tick.steps = s.steps + 1 := rfl
@[simp] theorem tick_rsp : s.tick.rsp = s.rsp := rfl
@[simp] theorem readReg_tick : s.tick.readReg r = s.readReg r := rfl

@[simp] theorem stopped_regs (c : Cause) : (s.stopped c).regs = s.regs := rfl
@[simp] theorem stopped_pc (c : Cause) : (s.stopped c).pc = s.pc := rfl
@[simp] theorem stopped_cc (c : Cause) : (s.stopped c).cc = s.cc := rfl
@[simp] theorem stopped_mem (c : Cause) : (s.stopped c).mem = s.mem := rfl
@[simp] theorem stopped_stat (c : Cause) : (s.stopped c).stat = c.status := rfl
@[simp] theorem stopped_steps (c : Cause) : (s.stopped c).steps = s.steps := rfl
@[simp] theorem stopped_rsp (c : Cause) : (s.stopped c).rsp = s.rsp := rfl
@[simp] theorem readReg_stopped (c : Cause) : (s.stopped c).readReg r = s.readReg r := rfl

@[simp] theorem completed_regs (p : Word) : (s.completed p).regs = s.regs := rfl
@[simp] theorem completed_pc (p : Word) : (s.completed p).pc = p := rfl
@[simp] theorem completed_cc (p : Word) : (s.completed p).cc = s.cc := rfl
@[simp] theorem completed_mem (p : Word) : (s.completed p).mem = s.mem := rfl
@[simp] theorem completed_stat (p : Word) : (s.completed p).stat = .ok := rfl
@[simp] theorem completed_steps (p : Word) : (s.completed p).steps = s.steps := rfl
@[simp] theorem completed_rsp (p : Word) : (s.completed p).rsp = s.rsp := rfl
@[simp] theorem readReg_completed (p : Word) : (s.completed p).readReg r = s.readReg r := rfl

/-- A state of which every register and every other field agree is the same state. -/
theorem State.ext_regs {s t : State} (hr : ∀ r, s.readReg r = t.readReg r) (hpc : s.pc = t.pc)
    (hcc : s.cc = t.cc) (hm : s.mem = t.mem) (hs : s.stat = t.stat) (hn : s.steps = t.steps) :
    s = t := by
  have hregs : s.regs = t.regs := by
    apply Vector.ext
    intro k hk
    have hk' : (BitVec.ofNat 4 k).toNat = k := by simp; omega
    have h := hr (BitVec.ofNat 4 k)
    simpa [State.readReg, hk', hk] using h
  cases s; cases t; simp_all

end Sys2Proof.Machine
end

