-- ==== Sys2Proof/Laws/Ops.lean ====
section
/-! SUPPORT. What each shared operation can do, said once: if it answers a next state, then one of
these cases holds. Proofs cite these and do not unfold the operations. -/

namespace Sys2Proof.Machine

open Host (Outcome)

theorem raise_eq (c : Cause) (s : State) : raise c s = .next (s.stopped c) := rfl

theorem complete_eq (pc : Word) (s : State) : complete pc s = .next (s.completed pc) := rfl

theorem status_ne_ok (c : Cause) : c.status ≠ .ok := by cases c <;> decide

theorem stopped_stat_ne_ok (s : State) (c : Cause) : (s.stopped c).stat ≠ .ok := status_ne_ok c

/-! ### Operand forms -/

theorem withReg_some {r : RegId} {s : State} {v : Word} (h : s.readReg r = some v)
    (k : Word → Result) : withReg r s k = k v := by rw [withReg, h]

theorem withReg_RNONE (s : State) (k : Word → Result) :
    withReg RNONE s k = .next (s.stopped .invalidInstruction) := rfl

theorem withReg_eq_next {r : RegId} {s t : State} {k : Word → Result} :
    withReg r s k = .next t ↔
      (∃ v, s.readReg r = some v ∧ k v = .next t) ∨
      (r = RNONE ∧ t = s.stopped .invalidInstruction) := by
  by_cases hr : r = RNONE
  · subst hr
    rw [withReg_RNONE]
    simp [eq_comm]
  · obtain ⟨v, hv⟩ := exists_readReg s hr
    rw [withReg_some hv]
    simp [hv, hr]

theorem withRead8_some {a : Word} {s : State} {v : Word} (h : s.mem.read8 a = some v)
    (k : Word → Result) : withRead8 a s k = k v := by rw [withRead8, h]

theorem withRead8_invalid {a : Word} {s : State} (h : ¬ s.mem.Valid a 8) (k : Word → Result) :
    withRead8 a s k = .next (s.stopped .addressFault) := by
  rw [withRead8, read8_eq_none_iff.mpr h]; rfl

theorem withRead8_eq_next {a : Word} {s t : State} {k : Word → Result} :
    withRead8 a s k = .next t ↔
      (∃ v, s.mem.read8 a = some v ∧ k v = .next t) ∨
      (¬ s.mem.Valid a 8 ∧ t = s.stopped .addressFault) := by
  rcases h : s.mem.read8 a with _ | v
  · have hv := read8_eq_none_iff.mp h
    rw [withRead8_invalid hv]; simp [hv, eq_comm]
  · rw [withRead8_some h]; simp [(read8_eq_some_iff.mp h).1]

theorem withWrite8_some {a v : Word} {s : State} {m : Memory} (h : s.mem.write8 a v = some m)
    (k : State → Result) : withWrite8 a v s k = k (s.setMem m) := by rw [withWrite8, h]

theorem withWrite8_invalid {a v : Word} {s : State} (h : ¬ s.mem.Valid a 8) (k : State → Result) :
    withWrite8 a v s k = .next (s.stopped .addressFault) := by
  rw [withWrite8, write8_eq_none_iff.mpr h]; rfl

theorem withWrite8_eq_next {a v : Word} {s t : State} {k : State → Result} :
    withWrite8 a v s k = .next t ↔
      (∃ m, s.mem.write8 a v = some m ∧ k (s.setMem m) = .next t) ∨
      (¬ s.mem.Valid a 8 ∧ t = s.stopped .addressFault) := by
  rcases h : s.mem.write8 a v with _ | m
  · have hv := write8_eq_none_iff.mp h
    rw [withWrite8_invalid hv]; simp [hv, eq_comm]
  · rw [withWrite8_some h]; simp [(write8_eq_some_iff.mp h).1]

theorem baseValue_RNONE (s : State) : baseValue RNONE s = 0 := rfl

theorem baseValue_some {r : RegId} {s : State} {v : Word} (h : s.readReg r = some v) :
    baseValue r s = v := by rw [baseValue, h]

/-! ### The families -/

theorem moveIf_next {p : Pred} {rA rB : RegId} {s t : State} (h : moveIf p rA rB s = .next t) :
    (∃ a b, s.readReg rA = some a ∧ s.readReg rB = some b ∧
      t = (if condHolds p s.cc then s.writeReg rB a else s).completed (s.pc + 2)) ∨
    ((rA = RNONE ∨ rB = RNONE) ∧ t = s.stopped .invalidInstruction) := by
  rcases withReg_eq_next.mp h with ⟨a, ha, h⟩ | ⟨hr, ht⟩
  · rcases withReg_eq_next.mp h with ⟨b, hb, h⟩ | ⟨hr, ht⟩
    · exact .inl ⟨a, b, ha, hb, (Outcome.next.inj h).symm⟩
    · exact .inr ⟨.inr hr, ht⟩
  · exact .inr ⟨.inl hr, ht⟩

theorem aluStep_next {op : AluOp} {rA rB : RegId} {s t : State} (h : aluStep op rA rB s = .next t) :
    (∃ a b, s.readReg rA = some a ∧ s.readReg rB = some b ∧
      t = ((s.setCodes (aluFlags op a b)).writeReg rB (aluResult op a b)).completed (s.pc + 2)) ∨
    ((rA = RNONE ∨ rB = RNONE) ∧ t = s.stopped .invalidInstruction) := by
  rcases withReg_eq_next.mp h with ⟨a, ha, h⟩ | ⟨hr, ht⟩
  · rcases withReg_eq_next.mp h with ⟨b, hb, h⟩ | ⟨hr, ht⟩
    · exact .inl ⟨a, b, ha, hb, (Outcome.next.inj h).symm⟩
    · exact .inr ⟨.inr hr, ht⟩
  · exact .inr ⟨.inl hr, ht⟩

theorem jumpIf_next {p : Pred} {dest : Word} {s t : State} (h : jumpIf p dest s = .next t) :
    t = s.completed (if condHolds p s.cc then dest else s.pc + 9) := (Outcome.next.inj h).symm

theorem execIrmovq_next {rB : RegId} {v : Word} {s t : State} (h : execIrmovq rB v s = .next t) :
    (rB ≠ RNONE ∧ t = (s.writeReg rB v).completed (s.pc + 10)) ∨
    (rB = RNONE ∧ t = s.stopped .invalidInstruction) := by
  rcases withReg_eq_next.mp h with ⟨b, hb, h⟩ | ⟨hr, ht⟩
  · exact .inl ⟨named_of_readReg hb, (Outcome.next.inj h).symm⟩
  · exact .inr ⟨hr, ht⟩

theorem execRmmovq_next {rA rB : RegId} {d : Word} {s t : State}
    (h : execRmmovq rA rB d s = .next t) :
    (∃ a m, s.readReg rA = some a ∧ s.mem.write8 (effectiveAddress rB d s) a = some m ∧
      t = (s.setMem m).completed (s.pc + 10)) ∨
    (rA = RNONE ∧ t = s.stopped .invalidInstruction) ∨
    (rA ≠ RNONE ∧ ¬ s.mem.Valid (effectiveAddress rB d s) 8 ∧ t = s.stopped .addressFault) := by
  rcases withReg_eq_next.mp h with ⟨a, ha, h⟩ | hr
  · rcases withWrite8_eq_next.mp h with ⟨m, hm, h⟩ | hv
    · exact .inl ⟨a, m, ha, hm, (Outcome.next.inj h).symm⟩
    · exact .inr (.inr ⟨named_of_readReg ha, hv⟩)
  · exact .inr (.inl hr)

theorem execMrmovq_next {rA rB : RegId} {d : Word} {s t : State}
    (h : execMrmovq rA rB d s = .next t) :
    (∃ v, rA ≠ RNONE ∧ s.mem.read8 (effectiveAddress rB d s) = some v ∧
      t = (s.writeReg rA v).completed (s.pc + 10)) ∨
    (rA = RNONE ∧ t = s.stopped .invalidInstruction) ∨
    (rA ≠ RNONE ∧ ¬ s.mem.Valid (effectiveAddress rB d s) 8 ∧ t = s.stopped .addressFault) := by
  rcases withReg_eq_next.mp h with ⟨a, ha, h⟩ | hr
  · rcases withRead8_eq_next.mp h with ⟨v, hv, h⟩ | hv
    · exact .inl ⟨v, named_of_readReg ha, hv, (Outcome.next.inj h).symm⟩
    · exact .inr (.inr ⟨named_of_readReg ha, hv⟩)
  · exact .inr (.inl hr)

theorem execCall_next {dest : Word} {s t : State} (h : execCall dest s = .next t) :
    (∃ m, s.mem.write8 (s.rsp - 8) (s.pc + 9) = some m ∧
      t = ((s.setMem m).setRsp (s.rsp - 8)).completed dest) ∨
    (¬ s.mem.Valid (s.rsp - 8) 8 ∧ t = s.stopped .addressFault) := by
  rcases withWrite8_eq_next.mp h with ⟨m, hm, h⟩ | hv
  · exact .inl ⟨m, hm, (Outcome.next.inj h).symm⟩
  · exact .inr hv

theorem execRet_next {s t : State} (h : execRet s = .next t) :
    (∃ v, s.mem.read8 s.rsp = some v ∧ t = (s.setRsp (s.rsp + 8)).completed v) ∨
    (¬ s.mem.Valid s.rsp 8 ∧ t = s.stopped .addressFault) := by
  rcases withRead8_eq_next.mp h with ⟨v, hv, h⟩ | hv
  · exact .inl ⟨v, hv, (Outcome.next.inj h).symm⟩
  · exact .inr hv

theorem execPushq_next {rA : RegId} {s t : State} (h : execPushq rA s = .next t) :
    (∃ a m, s.readReg rA = some a ∧ s.mem.write8 (s.rsp - 8) a = some m ∧
      t = ((s.setMem m).setRsp (s.rsp - 8)).completed (s.pc + 2)) ∨
    (rA = RNONE ∧ t = s.stopped .invalidInstruction) ∨
    (rA ≠ RNONE ∧ ¬ s.mem.Valid (s.rsp - 8) 8 ∧ t = s.stopped .addressFault) := by
  rcases withReg_eq_next.mp h with ⟨a, ha, h⟩ | hr
  · rcases withWrite8_eq_next.mp h with ⟨m, hm, h⟩ | hv
    · exact .inl ⟨a, m, ha, hm, (Outcome.next.inj h).symm⟩
    · exact .inr (.inr ⟨named_of_readReg ha, hv⟩)
  · exact .inr (.inl hr)

theorem execPopq_next {rA : RegId} {s t : State} (h : execPopq rA s = .next t) :
    (∃ v, rA ≠ RNONE ∧ s.mem.read8 s.rsp = some v ∧
      t = ((s.writeReg rA v).setRsp ((s.writeReg rA v).rsp + 8)).completed (s.pc + 2)) ∨
    (rA = RNONE ∧ t = s.stopped .invalidInstruction) ∨
    (rA ≠ RNONE ∧ ¬ s.mem.Valid s.rsp 8 ∧ t = s.stopped .addressFault) := by
  rcases withReg_eq_next.mp h with ⟨a, ha, h⟩ | hr
  · rcases withRead8_eq_next.mp h with ⟨v, hv, h⟩ | hv
    · exact .inl ⟨v, named_of_readReg ha, hv, (Outcome.next.inj h).symm⟩
    · exact .inr (.inr ⟨named_of_readReg ha, hv⟩)
  · exact .inr (.inl hr)

/-! ### The step -/

theorem stoppedFault_eq_none_iff {x : Status} : stoppedFault x = none ↔ x = .ok := by
  cases x <;> simp [stoppedFault]

/-- A step that answers a next state: it started at `OK`, and either the fetch raised, or the decoded
instruction answered it (R80). -/
theorem step_next {s t : State} (h : step s = .next t) :
    s.stat = .ok ∧
    ((∃ e, fetchDecode s = .error e ∧ t = s.tick.stopped (causeOf e)) ∨
     (∃ i, fetchDecode s = .ok i ∧ exec i s.tick = .next t)) := by
  unfold step at h
  split at h
  · simp at h
  · next hs =>
    refine ⟨stoppedFault_eq_none_iff.mp hs, ?_⟩
    split at h
    · next e he => exact .inl ⟨e, he, (Outcome.next.inj h).symm⟩
    · next i hi => exact .inr ⟨i, hi, h⟩

theorem step_of_fetch {s : State} {i : Instr} (hs : s.stat = .ok) (h : fetchDecode s = .ok i) :
    step s = exec i s.tick := by
  unfold step; rw [stoppedFault_eq_none_iff.mpr hs, h]

theorem step_of_error {s : State} {e : DecodeError} (hs : s.stat = .ok)
    (h : fetchDecode s = .error e) : step s = .next (s.tick.stopped (causeOf e)) := by
  unfold step; rw [stoppedFault_eq_none_iff.mpr hs, h]; rfl

end Sys2Proof.Machine
end

