-- ==== Sys2Proof/Laws/PerInstr.lean ====
section
/-! SUPPORT. Statements about every instruction as syntax, one lemma per constructor. -/

namespace Sys2Proof.Laws.ClassLength

open Sys2Proof.Machine

/-- The bytes of the instruction begin with an opcode byte whose class nibble gives their number, and
that opcode byte is one the map knows (R55, R56). -/
def Statement (i : Instr) : Prop :=
  ∀ x : RegId, ∃ b0 rest, encodeWith x i = b0 :: rest ∧
    (encodeWith x i).length = lengthOfClass (highNibble b0) ∧ (shapeOf b0).isSome = true

theorem halt : Statement .halt := fun _ => ⟨_, _, rfl, rfl, rfl⟩
theorem nop : Statement .nop := fun _ => ⟨_, _, rfl, rfl, rfl⟩
theorem rrmovq (rA rB : RegId) : Statement (.rrmovq rA rB) := fun _ => ⟨_, _, rfl, rfl, rfl⟩
theorem cmovle (rA rB : RegId) : Statement (.cmovle rA rB) := fun _ => ⟨_, _, rfl, rfl, rfl⟩
theorem cmovl (rA rB : RegId) : Statement (.cmovl rA rB) := fun _ => ⟨_, _, rfl, rfl, rfl⟩
theorem cmove (rA rB : RegId) : Statement (.cmove rA rB) := fun _ => ⟨_, _, rfl, rfl, rfl⟩
theorem cmovne (rA rB : RegId) : Statement (.cmovne rA rB) := fun _ => ⟨_, _, rfl, rfl, rfl⟩
theorem cmovge (rA rB : RegId) : Statement (.cmovge rA rB) := fun _ => ⟨_, _, rfl, rfl, rfl⟩
theorem cmovg (rA rB : RegId) : Statement (.cmovg rA rB) := fun _ => ⟨_, _, rfl, rfl, rfl⟩
theorem irmovq (rB : RegId) (v : Word) : Statement (.irmovq rB v) := fun _ => ⟨_, _, rfl, rfl, rfl⟩
theorem rmmovq (rA rB : RegId) (d : Word) : Statement (.rmmovq rA rB d) :=
  fun _ => ⟨_, _, rfl, rfl, rfl⟩
theorem mrmovq (rA rB : RegId) (d : Word) : Statement (.mrmovq rA rB d) :=
  fun _ => ⟨_, _, rfl, rfl, rfl⟩
theorem addq (rA rB : RegId) : Statement (.addq rA rB) := fun _ => ⟨_, _, rfl, rfl, rfl⟩
theorem subq (rA rB : RegId) : Statement (.subq rA rB) := fun _ => ⟨_, _, rfl, rfl, rfl⟩
theorem andq (rA rB : RegId) : Statement (.andq rA rB) := fun _ => ⟨_, _, rfl, rfl, rfl⟩
theorem xorq (rA rB : RegId) : Statement (.xorq rA rB) := fun _ => ⟨_, _, rfl, rfl, rfl⟩
theorem jmp (dest : Word) : Statement (.jmp dest) := fun _ => ⟨_, _, rfl, rfl, rfl⟩
theorem jle (dest : Word) : Statement (.jle dest) := fun _ => ⟨_, _, rfl, rfl, rfl⟩
theorem jl (dest : Word) : Statement (.jl dest) := fun _ => ⟨_, _, rfl, rfl, rfl⟩
theorem je (dest : Word) : Statement (.je dest) := fun _ => ⟨_, _, rfl, rfl, rfl⟩
theorem jne (dest : Word) : Statement (.jne dest) := fun _ => ⟨_, _, rfl, rfl, rfl⟩
theorem jge (dest : Word) : Statement (.jge dest) := fun _ => ⟨_, _, rfl, rfl, rfl⟩
theorem jg (dest : Word) : Statement (.jg dest) := fun _ => ⟨_, _, rfl, rfl, rfl⟩
theorem call (dest : Word) : Statement (.call dest) := fun _ => ⟨_, _, rfl, rfl, rfl⟩
theorem ret : Statement .ret := fun _ => ⟨_, _, rfl, rfl, rfl⟩
theorem pushq (rA : RegId) : Statement (.pushq rA) := fun _ => ⟨_, _, rfl, rfl, rfl⟩
theorem popq (rA : RegId) : Statement (.popq rA) := fun _ => ⟨_, _, rfl, rfl, rfl⟩

end Sys2Proof.Laws.ClassLength
end

