-- ==== Sys2Proof/Tests/Slice0.lean ====
section
/-! SUPPORT. Tests of the model. Expected values are those of spec/95_test_vectors.md or hand calculation
from the rule named; the last part shows, for each obligation with hypotheses, states and operands that
meet them. -/

namespace Sys2Proof.Tests

open Sys2Proof Sys2Proof.Machine Sys2Proof.Claims

/-! ### Helpers -/

/-- The outcome is a next state of which `p` holds. -/
def answers (o : Result) (p : State → Prop) [DecidablePred p] : Bool :=
  match o with
  | .next t => decide (p t)
  | .fault _ => false
  | .refused _ => false

theorem of_answers {o : Result} {p : State → Prop} [DecidablePred p] (h : answers o p = true) :
    ∃ t, o = .next t ∧ p t := by
  cases o with
  | next t => exact ⟨t, rfl, of_decide_eq_true h⟩
  | fault _ => exact absurd h (by simp [answers])
  | refused _ => exact absurd h (by simp [answers])

/-- The reset state with bytes at `a`. -/
def placed (a : Nat) (bs : List Byte) : State :=
  { State.reset with mem := State.reset.mem.storeBytes a bs }

/-- More bytes at `a`. -/
def put (a : Nat) (bs : List Byte) (s : State) : State := { s with mem := s.mem.storeBytes a bs }

def withRegs (rs : List (RegId × Word)) (s : State) : State :=
  rs.foldl (fun s p => s.writeReg p.1 p.2) s

def withPc (pc : Word) (s : State) : State := { s with pc := pc }

def withCodes (z n v : Bool) (s : State) : State := { s with cc := { ZF := z, SF := n, OF := v } }

def bytesAt (t : State) (a n : Nat) : List Byte := (List.range n).map fun k => t.mem.byteAt (a + k)

/-- One step from code at address 0 with registers `rs`. -/
def after (code : List Byte) (rs : List (RegId × Word)) : Result := step (withRegs rs (placed 0 code))

/-- The status of the state a step answers. -/
def statusOf (s : State) : Option Status :=
  match step s with
  | .next t => some t.stat
  | .fault _ => none
  | .refused _ => none

/-! ### Ill-formed terms are refused by WellFormed (R60) -/

theorem test_wf_rrmovq : (Instr.rrmovq RNONE 3).wf = false ∧ (Instr.rrmovq 3 RNONE).wf = false ∧
    (Instr.rrmovq 14 0).wf = true := by decide
theorem test_wf_cmovle : (Instr.cmovle RNONE 3).wf = false ∧ (Instr.cmovle 3 RNONE).wf = false ∧
    (Instr.cmovle 14 0).wf = true := by decide
theorem test_wf_cmovl : (Instr.cmovl RNONE 3).wf = false ∧ (Instr.cmovl 3 RNONE).wf = false ∧
    (Instr.cmovl 14 0).wf = true := by decide
theorem test_wf_cmove : (Instr.cmove RNONE 3).wf = false ∧ (Instr.cmove 3 RNONE).wf = false ∧
    (Instr.cmove 14 0).wf = true := by decide
theorem test_wf_cmovne : (Instr.cmovne RNONE 3).wf = false ∧ (Instr.cmovne 3 RNONE).wf = false ∧
    (Instr.cmovne 14 0).wf = true := by decide
theorem test_wf_cmovge : (Instr.cmovge RNONE 3).wf = false ∧ (Instr.cmovge 3 RNONE).wf = false ∧
    (Instr.cmovge 14 0).wf = true := by decide
theorem test_wf_cmovg : (Instr.cmovg RNONE 3).wf = false ∧ (Instr.cmovg 3 RNONE).wf = false ∧
    (Instr.cmovg 14 0).wf = true := by decide
theorem test_wf_addq : (Instr.addq RNONE 3).wf = false ∧ (Instr.addq 3 RNONE).wf = false ∧
    (Instr.addq 14 0).wf = true := by decide
theorem test_wf_subq : (Instr.subq RNONE 3).wf = false ∧ (Instr.subq 3 RNONE).wf = false ∧
    (Instr.subq 14 0).wf = true := by decide
theorem test_wf_andq : (Instr.andq RNONE 3).wf = false ∧ (Instr.andq 3 RNONE).wf = false ∧
    (Instr.andq 14 0).wf = true := by decide
theorem test_wf_xorq : (Instr.xorq RNONE 3).wf = false ∧ (Instr.xorq 3 RNONE).wf = false ∧
    (Instr.xorq 14 0).wf = true := by decide
theorem test_wf_irmovq : (Instr.irmovq RNONE 5).wf = false ∧ (Instr.irmovq 14 5).wf = true := by decide
/-- The base may be `RNONE` (R60, R105). -/
theorem test_wf_rmmovq : (Instr.rmmovq RNONE 3 0).wf = false ∧ (Instr.rmmovq 0 RNONE 0).wf = true := by
  decide
/-- The base may be `RNONE` (R60, R105). -/
theorem test_wf_mrmovq : (Instr.mrmovq RNONE 3 0).wf = false ∧ (Instr.mrmovq 0 RNONE 0).wf = true := by
  decide
theorem test_wf_pushq : (Instr.pushq RNONE).wf = false ∧ (Instr.pushq 14).wf = true := by decide
theorem test_wf_popq : (Instr.popq RNONE).wf = false ∧ (Instr.popq 14).wf = true := by decide

/-! ### Decoding and encoding: the bytes of spec/95_test_vectors.md section 2.1 -/

theorem test_word_halt : decode [0x00] = .ok (.halt) ∧
    encode (.halt) = [0x00] := by decide
theorem test_word_nop : decode [0x10] = .ok (.nop) ∧
    encode (.nop) = [0x10] := by decide
theorem test_word_rrmovq : decode [0x20, 0x03] = .ok (.rrmovq 0 3) ∧
    encode (.rrmovq 0 3) = [0x20, 0x03] := by decide
theorem test_word_cmovle : decode [0x21, 0x12] = .ok (.cmovle 1 2) ∧
    encode (.cmovle 1 2) = [0x21, 0x12] := by decide
theorem test_word_cmovl : decode [0x22, 0x67] = .ok (.cmovl 6 7) ∧
    encode (.cmovl 6 7) = [0x22, 0x67] := by decide
theorem test_word_cmove : decode [0x23, 0x89] = .ok (.cmove 8 9) ∧
    encode (.cmove 8 9) = [0x23, 0x89] := by decide
theorem test_word_cmovne : decode [0x24, 0xAB] = .ok (.cmovne 10 11) ∧
    encode (.cmovne 10 11) = [0x24, 0xAB] := by decide
theorem test_word_cmovge : decode [0x25, 0xCD] = .ok (.cmovge 12 13) ∧
    encode (.cmovge 12 13) = [0x25, 0xCD] := by decide
theorem test_word_cmovg : decode [0x26, 0xE0] = .ok (.cmovg 14 0) ∧
    encode (.cmovg 14 0) = [0x26, 0xE0] := by decide
theorem test_word_irmovq : decode [0x30, 0xFE, 0x88, 0x77, 0x66, 0x55, 0x44, 0x33, 0x22, 0x11] = .ok (.irmovq 14 0x1122334455667788) ∧
    encode (.irmovq 14 0x1122334455667788) = [0x30, 0xFE, 0x88, 0x77, 0x66, 0x55, 0x44, 0x33, 0x22, 0x11] := by decide
theorem test_word_rmmovq : decode [0x40, 0x03, 0x10, 0x00, 0x00, 0x00, 0x00, 0x00, 0x00, 0x00] = .ok (.rmmovq 0 3 0x10) ∧
    encode (.rmmovq 0 3 0x10) = [0x40, 0x03, 0x10, 0x00, 0x00, 0x00, 0x00, 0x00, 0x00, 0x00] := by decide
theorem test_word_mrmovq : decode [0x50, 0x13, 0xF8, 0xFF, 0xFF, 0xFF, 0xFF, 0xFF, 0xFF, 0xFF] = .ok (.mrmovq 1 3 0xFFFFFFFFFFFFFFF8) ∧
    encode (.mrmovq 1 3 0xFFFFFFFFFFFFFFF8) = [0x50, 0x13, 0xF8, 0xFF, 0xFF, 0xFF, 0xFF, 0xFF, 0xFF, 0xFF] := by decide
theorem test_word_addq : decode [0x60, 0x00] = .ok (.addq 0 0) ∧
    encode (.addq 0 0) = [0x60, 0x00] := by decide
theorem test_word_subq : decode [0x61, 0x71] = .ok (.subq 7 1) ∧
    encode (.subq 7 1) = [0x61, 0x71] := by decide
theorem test_word_andq : decode [0x62, 0x03] = .ok (.andq 0 3) ∧
    encode (.andq 0 3) = [0x62, 0x03] := by decide
theorem test_word_xorq : decode [0x63, 0x66] = .ok (.xorq 6 6) ∧
    encode (.xorq 6 6) = [0x63, 0x66] := by decide
theorem test_word_jmp : decode [0x70, 0x20, 0x00, 0x00, 0x00, 0x00, 0x00, 0x00, 0x00] = .ok (.jmp 0x20) ∧
    encode (.jmp 0x20) = [0x70, 0x20, 0x00, 0x00, 0x00, 0x00, 0x00, 0x00, 0x00] := by decide
theorem test_word_jle : decode [0x71, 0x40, 0x00, 0x00, 0x00, 0x00, 0x00, 0x00, 0x00] = .ok (.jle 0x40) ∧
    encode (.jle 0x40) = [0x71, 0x40, 0x00, 0x00, 0x00, 0x00, 0x00, 0x00, 0x00] := by decide
theorem test_word_jl : decode [0x72, 0x40, 0x00, 0x00, 0x00, 0x00, 0x00, 0x00, 0x00] = .ok (.jl 0x40) ∧
    encode (.jl 0x40) = [0x72, 0x40, 0x00, 0x00, 0x00, 0x00, 0x00, 0x00, 0x00] := by decide
theorem test_word_je : decode [0x73, 0x40, 0x00, 0x00, 0x00, 0x00, 0x00, 0x00, 0x00] = .ok (.je 0x40) ∧
    encode (.je 0x40) = [0x73, 0x40, 0x00, 0x00, 0x00, 0x00, 0x00, 0x00, 0x00] := by decide
theorem test_word_jne : decode [0x74, 0x40, 0x00, 0x00, 0x00, 0x00, 0x00, 0x00, 0x00] = .ok (.jne 0x40) ∧
    encode (.jne 0x40) = [0x74, 0x40, 0x00, 0x00, 0x00, 0x00, 0x00, 0x00, 0x00] := by decide
theorem test_word_jge : decode [0x75, 0x40, 0x00, 0x00, 0x00, 0x00, 0x00, 0x00, 0x00] = .ok (.jge 0x40) ∧
    encode (.jge 0x40) = [0x75, 0x40, 0x00, 0x00, 0x00, 0x00, 0x00, 0x00, 0x00] := by decide
theorem test_word_jg : decode [0x76, 0x40, 0x00, 0x00, 0x00, 0x00, 0x00, 0x00, 0x00] = .ok (.jg 0x40) ∧
    encode (.jg 0x40) = [0x76, 0x40, 0x00, 0x00, 0x00, 0x00, 0x00, 0x00, 0x00] := by decide
theorem test_word_call : decode [0x80, 0x34, 0x12, 0x00, 0x00, 0x00, 0x00, 0x00, 0x00] = .ok (.call 0x1234) ∧
    encode (.call 0x1234) = [0x80, 0x34, 0x12, 0x00, 0x00, 0x00, 0x00, 0x00, 0x00] := by decide
theorem test_word_ret : decode [0x90] = .ok (.ret) ∧
    encode (.ret) = [0x90] := by decide
theorem test_word_pushq : decode [0xA0, 0x7F] = .ok (.pushq 7) ∧
    encode (.pushq 7) = [0xA0, 0x7F] := by decide
theorem test_word_popq : decode [0xB0, 0x1F] = .ok (.popq 1) ∧
    encode (.popq 1) = [0xB0, 0x1F] := by decide
/-- `rmmovq %rax, 0x100`: no base (95_test_vectors.md section 2.1). -/
theorem test_word_rmmovq_no_base :
    decode [0x40, 0x0F, 0x00, 0x01, 0, 0, 0, 0, 0, 0] = .ok (.rmmovq 0 RNONE 0x100) := by decide
/-- The nibble of an absent slot is not examined (R61, vectors D-11 and D-14). -/
theorem test_absent_slots : decode [0x30, 0x03, 5, 0, 0, 0, 0, 0, 0, 0] = .ok (.irmovq 3 5) ∧
    decode [0xA0, 0x00] = .ok (.pushq 0) ∧ decode [0xB0, 0x12] = .ok (.popq 1) := by decide
/-- R59, vector D-6: 229 of the 256 opcode bytes are unrecognised. -/
theorem test_count_unrecognised :
    ((List.range 256).filter fun k => (shapeOf (BitVec.ofNat 8 k)).isNone).length = 229 := by
  decide +kernel
/-- R57: the four checks by name. -/
theorem test_decode_errors : decode [] = .error .opcodeFetch ∧
    decode [0xC0, 0x12] = .error .unrecognisedOpcode ∧ decode [0x64] = .error .unrecognisedOpcode ∧
    decode [0x60] = .error .registerByteFetch ∧ decode [0x30] = .error .registerByteFetch ∧
    decode [0x70, 1, 2, 3, 4, 5, 6, 7] = .error .constantFetch ∧
    decode [0x30, 0xFF, 1, 2, 3, 4, 5, 6, 7] = .error .constantFetch := by decide
/-- The bits of a table word count on from the first byte: `subq %rdi, %rcx` is 61 71. -/
theorem test_table_word : decodeTableWord 16 0x7161 = some (.subq 7 1) ∧
    decodeTableWord 8 0xFF60 = some (.addq 0 0) ∧ decodeTableWord 8 0xC0 = none ∧
    decodeTableWord 80 0x112233445566778800330 = some (.irmovq 3 0x1223344556677880) := by decide
/-- A word placed where the next step fetches runs as the first instruction after reset. -/
theorem test_fetch_word : answers (step (State.reset.withFetchWord 80 0x1122334455667788FE30))
    (fun t => t.readReg 14 = some 0x1122334455667788 ∧ t.pc = 0xA ∧ t.steps = 1) = true := by decide

/-! ### One step each (spec/95_test_vectors.md sections 2.4 to 2.11) -/

/-- H-1. -/
theorem test_halt : answers (step (withPc 0xC (placed 0xC [0x00])))
    (fun t => t = { withPc 0xC (placed 0xC [0x00]) with stat := .hlt, steps := 1 }) = true := by decide
/-- H-2. -/
theorem test_nop : answers (step (withPc 0x20 (placed 0x20 [0x10])))
    (fun t => t.pc = 0x21 ∧ t.stat = .ok ∧ t.cc = State.reset.cc) = true := by decide
/-- M-19. -/
theorem test_rrmovq_stack_pointer : answers (after [0x20, 0x04] [(0, 0x300)])
    (fun t => t.rsp = 0x300 ∧ t.pc = 2) = true := by decide
/-- M-4. -/
theorem test_cmovle_overflow : answers
    (step (withCodes false false true (withRegs [(1, 5), (2, 9)] (placed 0 [0x21, 0x12]))))
    (fun t => t.readReg 2 = some 5 ∧ t.readReg 1 = some 5 ∧ t.pc = 2) = true := by decide
/-- M-3. -/
theorem test_cmovle_false : answers
    (step (withCodes false false false (withRegs [(1, 5), (2, 9)] (placed 0 [0x21, 0x12]))))
    (fun t => t.readReg 2 = some 9 ∧ t.readReg 1 = some 5 ∧ t.pc = 2) = true := by decide
/-- M-5. -/
theorem test_cmovl_true : answers
    (step (withCodes false true false (withRegs [(1, 5), (2, 9)] (placed 0 [0x22, 0x12]))))
    (fun t => t.readReg 2 = some 5 ∧ t.readReg 1 = some 5 ∧ t.pc = 2) = true := by decide
/-- M-6. -/
theorem test_cmovl_overflow : answers
    (step (withCodes false true true (withRegs [(1, 5), (2, 9)] (placed 0 [0x22, 0x12]))))
    (fun t => t.readReg 2 = some 9 ∧ t.readReg 1 = some 5 ∧ t.pc = 2) = true := by decide
/-- M-8. -/
theorem test_cmove_true : answers
    (step (withCodes true false false (withRegs [(1, 5), (2, 9)] (placed 0 [0x23, 0x12]))))
    (fun t => t.readReg 2 = some 5 ∧ t.readReg 1 = some 5 ∧ t.pc = 2) = true := by decide
/-- M-9. -/
theorem test_cmove_false : answers
    (step (withCodes false false false (withRegs [(1, 5), (2, 9)] (placed 0 [0x23, 0x12]))))
    (fun t => t.readReg 2 = some 9 ∧ t.readReg 1 = some 5 ∧ t.pc = 2) = true := by decide
/-- M-10. -/
theorem test_cmovne_true : answers
    (step (withCodes false true false (withRegs [(1, 5), (2, 9)] (placed 0 [0x24, 0x12]))))
    (fun t => t.readReg 2 = some 5 ∧ t.readReg 1 = some 5 ∧ t.pc = 2) = true := by decide
/-- M-11. -/
theorem test_cmovne_false : answers
    (step (withCodes true false false (withRegs [(1, 5), (2, 9)] (placed 0 [0x24, 0x12]))))
    (fun t => t.readReg 2 = some 9 ∧ t.readReg 1 = some 5 ∧ t.pc = 2) = true := by decide
/-- M-12. -/
theorem test_cmovge_true : answers
    (step (withCodes false true true (withRegs [(1, 5), (2, 9)] (placed 0 [0x25, 0x12]))))
    (fun t => t.readReg 2 = some 5 ∧ t.readReg 1 = some 5 ∧ t.pc = 2) = true := by decide
/-- M-13. -/
theorem test_cmovge_false : answers
    (step (withCodes false true false (withRegs [(1, 5), (2, 9)] (placed 0 [0x25, 0x12]))))
    (fun t => t.readReg 2 = some 9 ∧ t.readReg 1 = some 5 ∧ t.pc = 2) = true := by decide
/-- M-16. -/
theorem test_cmovg_zero : answers
    (step (withCodes true false false (withRegs [(1, 5), (2, 9)] (placed 0 [0x26, 0x12]))))
    (fun t => t.readReg 2 = some 9 ∧ t.readReg 1 = some 5 ∧ t.pc = 2) = true := by decide
/-- M-15. -/
theorem test_cmovg_true : answers
    (step (withCodes false false false (withRegs [(1, 5), (2, 9)] (placed 0 [0x26, 0x12]))))
    (fun t => t.readReg 2 = some 5 ∧ t.readReg 1 = some 5 ∧ t.pc = 2) = true := by decide
/-- I-5. -/
theorem test_irmovq : answers (after [0x30, 0xFE, 0x88, 0x77, 0x66, 0x55, 0x44, 0x33, 0x22, 0x11] [])
    (fun t => t.readReg 14 = some 0x1122334455667788 ∧ t.pc = 0xA) = true := by decide
/-- L-1. -/
theorem test_rmmovq : answers (after [0x40, 0x03, 0x10, 0x00, 0x00, 0x00, 0x00, 0x00, 0x00, 0x00] [(0, 0x1122334455667788), (3, 0x100)])
    (fun t => bytesAt t 0x110 8 = [0x88, 0x77, 0x66, 0x55, 0x44, 0x33, 0x22, 0x11] ∧ t.pc = 0xA) = true := by decide
/-- L-5: no byte is written, not even those inside memory. -/
theorem test_rmmovq_invalid : answers (after [0x40, 0x03, 0x00, 0x00, 0x00, 0x00, 0x00, 0x00, 0x00, 0x00] [(3, 0x1FF9), (0, 1)])
    (fun t => t.stat = .adr ∧ t.pc = 0 ∧ bytesAt t 0x1FF9 7 = [0, 0, 0, 0, 0, 0, 0]) = true := by decide
/-- L-7. -/
theorem test_mrmovq_own_code : answers (after [0x50, 0x00, 0x00, 0x00, 0x00, 0x00, 0x00, 0x00, 0x00, 0x00] [])
    (fun t => t.readReg 0 = some 0x50 ∧ t.pc = 0xA) = true := by decide
/-- L-8: at any alignment. -/
theorem test_mrmovq_unaligned : answers (step (withRegs [(3, 0x100)]
      (put 0x100 [0x11, 0x22, 0x33, 0x44, 0x55, 0x66, 0x77, 0x88, 0x99]
        (placed 0 [0x50, 0x13, 0x01, 0, 0, 0, 0, 0, 0, 0]))))
    (fun t => t.readReg 1 = some 0x9988776655443322) = true := by decide
/-- Section 2.8. -/
theorem test_addq_overflow : answers (after [0x60, 0x12] [(1, 0x1), (2, 0x7FFFFFFFFFFFFFFF)])
    (fun t => t.readReg 2 = some 0x8000000000000000 ∧
      t.cc = { ZF := false, SF := true, OF := true } ∧ t.pc = 2) = true := by decide
/-- Section 2.8. -/
theorem test_addq_zero_overflow : answers (after [0x60, 0x12] [(1, 0x8000000000000000), (2, 0x8000000000000000)])
    (fun t => t.readReg 2 = some 0x0 ∧
      t.cc = { ZF := true, SF := false, OF := true } ∧ t.pc = 2) = true := by decide
/-- Section 2.8. -/
theorem test_subq_minuend : answers (after [0x61, 0x12] [(1, 0x3), (2, 0x5)])
    (fun t => t.readReg 2 = some 0x2 ∧
      t.cc = { ZF := false, SF := false, OF := false } ∧ t.pc = 2) = true := by decide
/-- Section 2.8. -/
theorem test_subq_overflow : answers (after [0x61, 0x12] [(1, 0x8000000000000000), (2, 0x0)])
    (fun t => t.readReg 2 = some 0x8000000000000000 ∧
      t.cc = { ZF := false, SF := true, OF := true } ∧ t.pc = 2) = true := by decide
/-- Section 2.8. -/
theorem test_andq : answers (after [0x62, 0x12] [(1, 0xFFFFFFFFFFFFFFFF), (2, 0x8000000000000000)])
    (fun t => t.readReg 2 = some 0x8000000000000000 ∧
      t.cc = { ZF := false, SF := true, OF := false } ∧ t.pc = 2) = true := by decide
/-- Section 2.8. -/
theorem test_xorq : answers (after [0x63, 0x12] [(1, 0xFF), (2, 0xF)])
    (fun t => t.readReg 2 = some 0xF0 ∧
      t.cc = { ZF := false, SF := false, OF := false } ∧ t.pc = 2) = true := by decide
/-- Section 2.8: the same register doubles. -/
theorem test_addq_same_register : answers (after [0x60, 0x00] [(0, 0xA)])
    (fun t => t.readReg 0 = some 0x14) = true := by decide
/-- The table of section 2.9, by the codes `ZF SF OF` read as a number: is jump `70 + k` taken? -/
def takenTable : List (List Bool) :=
  [[true, false, false, false, true, true, true],
   [true, true, true, false, true, false, false],
   [true, true, true, false, true, false, false],
   [true, false, false, false, true, true, true],
   [true, true, false, true, false, true, false],
   [true, true, true, true, false, false, false],
   [true, true, true, true, false, false, false],
   [true, true, false, true, false, true, false]]

/-- Section 2.9, all 56 entries: the end `pc` is 0x40 or 0x19. -/
theorem test_jumps : ∀ z n v : Bool, ∀ k : Fin 7,
    answers (step (withPc 0x10 (withCodes z n v
      (placed 0x10 [0x70 + BitVec.ofNat 8 k.val, 0x40, 0, 0, 0, 0, 0, 0, 0]))))
    (fun t => t.pc =
      if (takenTable[4 * z.toNat + 2 * n.toNat + v.toNat]!)[k.val]! then 0x40 else 0x19) = true := by
  decide
/-- R90: the truth table of the predicate is the same one. -/
theorem test_predicate : ∀ z n v : Bool, ∀ k : Fin 7,
    condHolds ([Pred.always, .le, .l, .e, .ne, .ge, .g].getD k.val .always) { ZF := z, SF := n, OF := v } =
      (takenTable[4 * z.toNat + 2 * n.toNat + v.toNat]!)[k.val]! := by decide
/-- C-1. -/
theorem test_call : answers (step (withPc 0xA (withRegs [(4, 0x200)] (placed 0xA [0x80, 0x40]))))
    (fun t => bytesAt t 0x1F8 8 = [0x13, 0, 0, 0, 0, 0, 0, 0] ∧ t.rsp = 0x1F8 ∧ t.pc = 0x40) = true := by
  decide
/-- C-3. -/
theorem test_call_invalid : answers (after [0x80, 0x20] [])
    (fun t => t.stat = .adr ∧ t.rsp = 0 ∧ t.pc = 0) = true := by decide
/-- C-5. -/
theorem test_ret : answers (after [0x90] [])
    (fun t => t.pc = 0x90 ∧ t.rsp = 8 ∧ t.stat = .ok) = true := by decide
/-- C-6. -/
theorem test_ret_invalid : answers (after [0x90] [(4, 0x1FF9)])
    (fun t => t.stat = .adr ∧ t.rsp = 0x1FF9 ∧ t.pc = 0) = true := by decide
/-- P-1. -/
theorem test_pushq : answers (after [0xA0, 0x0F] [(0, 0xABCD), (4, 0x200)])
    (fun t => bytesAt t 0x1F8 8 = [0xCD, 0xAB, 0, 0, 0, 0, 0, 0] ∧ t.rsp = 0x1F8 ∧ t.pc = 2) = true := by decide
/-- P-3: the old value is stored. -/
theorem test_pushq_stack_pointer : answers (after [0xA0, 0x4F] [(4, 0x200)])
    (fun t => bytesAt t 0x1F8 8 = [0, 2, 0, 0, 0, 0, 0, 0] ∧ t.rsp = 0x1F8) = true := by decide
/-- P-4: the loaded value, then 8 more. -/
theorem test_popq_stack_pointer : answers
    (step (withRegs [(4, 0x200)] (put 0x200 [0, 3] (placed 0 [0xB0, 0x4F]))))
    (fun t => t.rsp = 0x308) = true := by decide
/-- P-7. -/
theorem test_popq : answers (after [0xB0, 0x3F] [(4, 0x1FF8), (3, 5)])
    (fun t => t.readReg 3 = some 0 ∧ t.rsp = 0x2000 ∧ t.pc = 2) = true := by decide

/-! ### The statuses, their priority and the edge of memory (sections 2.2 and 2.3) -/

/-- E-1, E-2, E-6 to E-8, E-11, E-13. -/
theorem test_status_adr : statusOf (withPc 0x2000 State.reset) = some .adr ∧
    statusOf (withPc 0xFFFFFFFFFFFFFFFF State.reset) = some .adr ∧
    statusOf (withPc 0x1FFF (placed 0x1FFF [0x60])) = some .adr ∧
    statusOf (withPc 0x1FFF (placed 0x1FFF [0x30])) = some .adr ∧
    statusOf (withPc 0x1FFF (placed 0x1FFF [0x70])) = some .adr ∧
    statusOf (withPc 0x1FF8 (withCodes false false false (placed 0x1FF8 [0x73]))) = some .adr ∧
    statusOf (withPc 0x1FF7 (placed 0x1FF7 [0x30, 0xFF])) = some .adr := by decide
/-- D-1 to D-5, D-7 to D-10, D-12, D-13, D-15, E-9. -/
theorem test_status_ins : ([[0xC0], [0x01], [0x27], [0x7F], [0x64], [0xFF], [0x60, 0xF0], [0x60, 0x0F],
      [0x24, 0x1F], [0x30, 0xFF], [0x50, 0xF3], [0xA0, 0xF0]].all fun bs =>
        statusOf (placed 0 bs) == some .ins) = true ∧
    statusOf (withRegs [(3, 0xFFFFFFFFFFFFFFFF)] (placed 0 [0x40, 0xF3])) = some .ins ∧
    statusOf (withPc 0x1FFF (placed 0x1FFF [0xC0])) = some .ins := by decide
/-- E-3, E-4, E-5, E-10, E-12, E-14. -/
theorem test_status_edge : statusOf (withPc 0x1FFF (placed 0x1FFF [0x00])) = some .hlt ∧
    statusOf (withPc 0x1FFF (placed 0x1FFF [0x10])) = some .ok ∧
    statusOf (withPc 0x1FFF (withRegs [(4, 0x100)] (placed 0x1FFF [0x90]))) = some .ok ∧
    statusOf (withPc 0x1FF7 (placed 0x1FF7 [0x70])) = some .ok ∧
    statusOf (withPc 0x1FF6 (placed 0x1FF6 [0x30, 0xF0])) = some .ok ∧
    statusOf State.reset = some .hlt := by decide
/-- H-3: a stopped core takes no step. -/
theorem test_stopped : step { State.reset with stat := .hlt } = .fault .stoppedByHalt ∧
    step { State.reset with stat := .adr } = .fault .stoppedByAddressFault ∧
    step { State.reset with stat := .ins } = .fault .stoppedByInvalidInstruction :=
  ⟨rfl, rfl, rfl⟩

/-! ### Runs and the assembler (sections 2.12 and S2, S5, and 2.1 for the directives) -/

/-- P1, the document's example. -/
def sourceP1 : String := "irmovq $10, %rax\naddq %rax,%rax\nhalt"

def imageP1 : List Byte := [0x30, 0xF0, 0x0A, 0, 0, 0, 0, 0, 0, 0, 0x60, 0x00, 0x00]

/-- `bytes` assembled from a source text, or nothing. -/
def imageOf (source : String) : Option (List Byte) :=
  match assembleText source with
  | .ok bs => some bs
  | .error _ => none

theorem test_assemble : imageOf sourceP1 = some imageP1 := by decide +kernel
/-- R-1, and example S1: `%rax` holds 20, codes 0 0 0, status halt. -/
theorem test_run : (let t := run 3 (placed 0 imageP1)
    t.stat = .hlt ∧ t.steps = 3 ∧ t.readReg 0 = some 20 ∧ t.pc = 0xC ∧ t.cc.pack = 0) := by decide
/-- R-2. -/
theorem test_run_limit : (let t := run 2 (placed 0 imageP1)
    t.stat = .ok ∧ t.steps = 2 ∧ t.pc = 0xC ∧ t.readReg 0 = some 0x14) := by decide
/-- S2. -/
theorem test_pos : imageOf ".pos 0x20\nnop" = some (List.replicate 32 0 ++ [0x10]) := by decide +kernel
/-- S5: a label defined twice, and a symbol never defined. -/
theorem test_bad_symbols : assembleText "a: nop\na: halt" = .error (.duplicateLabel ['a']) ∧
    assembleText "jmp nowhere\nhalt" = .error (.undefinedSymbol "nowhere".toList) := by decide +kernel
/-- Section 2.1, directives. -/
theorem test_data : imageOf ".quad 0x0D000D000D\n.long 0x12345678\n.word 0xABCD\n.byte 0xC0" =
      some [0x0D, 0, 0x0D, 0, 0x0D, 0, 0, 0, 0x78, 0x56, 0x34, 0x12, 0xCD, 0xAB, 0xC0] ∧
    imageOf ".align 8\n.byte 1 # one\n.align 8\nlab: .quad lab" =
      some [1, 0, 0, 0, 0, 0, 0, 0, 8, 0, 0, 0, 0, 0, 0, 0] := by decide +kernel
/-- R65: the operand forms, the longest match and a negative displacement. -/
theorem test_operands : imageOf "mrmovq -8(%rbx), %r10\nrmmovq %r14, 0x100\nmrmovq (%rsp), %r8" =
      some ([0x50, 0xA3, 0xF8, 0xFF, 0xFF, 0xFF, 0xFF, 0xFF, 0xFF, 0xFF] ++
        [0x40, 0xEF, 0, 1, 0, 0, 0, 0, 0, 0] ++ [0x50, 0x84, 0, 0, 0, 0, 0, 0, 0, 0]) := by
  decide +kernel
/-- R168: program P1's report. -/
theorem test_report : (let r := report (placed 0 imageP1) (run 3 (placed 0 imageP1))
    r.registers = [{ place := 0, before := 0, after := 20 }] ∧ r.status = .hlt) := by decide

/-! ### Witnesses: the hypotheses of the obligations can be met together -/

theorem witness_reset : 1 ≤ 1 ∧ 1 < 2 ^ 63 ∧ ([0x10] : List Byte).length ≤ 1 ∧
    1 < ([0x10, 0x10] : List Byte).length := by decide
theorem witness_reset_state : (resetWith 1 [0x10]).isSome = true ∧
    (resetWith 0x2000 imageP1).isSome = true := by decide
theorem witness_invariant_step : Invariant (placed 0 imageP1) ∧
    ∃ t, step (placed 0 imageP1) = .next t ∧ t.pc = 10 :=
  ⟨⟨by decide, by decide⟩, of_answers (by decide)⟩
theorem witness_step_runs : (placed 0 imageP1).stat = .ok ∧
    BytesStandAtPc (imageP1.take 10) (placed 0 imageP1) ∧
    decode (imageP1.take 10) = .ok (.irmovq 0 10) := by
  unfold BytesStandAtPc; decide
/-- The last instruction of memory. -/
theorem witness_step_runs_edge :
    BytesStandAtPc [0x10] (withPc 0x1FFF (placed 0x1FFF [0x10])) := by
  unfold BytesStandAtPc; decide
theorem witness_absent_slot : hasAbsentSlot .halt = false ∧ hasAbsentSlot (.popq 3) = true ∧
    encodeWith 2 (.popq 3) = encodeWith 2 (.popq 3) ∧
    decode ([0xB0, 0x32] ++ [0x10]) = .ok (.popq 3) := by decide
theorem witness_class_length : decode [0x30, 0xF0, 1, 2, 3, 4, 5, 6, 7, 8, 9] =
    .ok (.irmovq 0 0x0807060504030201) ∧ 9 < lengthOfClass 3 ∧ 0 < lengthOfClass 9 := by decide
/-- E-12: ten bytes that fit exactly. -/
theorem witness_fetched_inside : (placed 0x1FF6 [0x30, 0xF0]).mem.wf ∧
    ∃ t, step (withPc 0x1FF6 (placed 0x1FF6 [0x30, 0xF0])) = .next t ∧ t.stat = .ok :=
  ⟨by decide, of_answers (by decide)⟩
theorem witness_priority : (placed 0x1FF7 [0x30, 0xFF]).mem.wf ∧
    (placed 0x1FF7 [0x30, 0xFF]).stat = .ok ∧
    statusByPriority (withPc 0x1FF7 (placed 0x1FF7 [0x30, 0xFF])) = .adr ∧
    statusByPriority (placed 0 [0x40, 0xF3]) = .ins ∧
    statusByPriority (placed 0 [0xA0, 0x0F]) = .adr ∧ statusByPriority State.reset = .hlt ∧
    statusByPriority (placed 0 [0x10]) = .ok := by decide
/-- P5a of the spec's programs. -/
theorem witness_address_fault : ∃ t, step (placed 0 [0xA0, 0x0F]) = .next t ∧ t.stat = .adr :=
  of_answers (by decide)
theorem witness_halt_step : ∃ t, step State.reset = .next t ∧ (t.stat = .hlt ∨ t.stat = .ins) :=
  of_answers (by decide)
theorem witness_invalid_step : ∃ t, step (placed 0 [0xC0]) = .next t ∧ (t.stat = .hlt ∨ t.stat = .ins) :=
  of_answers (by decide)
theorem witness_statuses : State.reset.stat = .ok ∧ { State.reset with stat := .hlt }.stat = .hlt ∧
    { State.reset with stat := .adr }.stat = .adr ∧ { State.reset with stat := .ins }.stat = .ins :=
  ⟨rfl, rfl, rfl, rfl⟩
theorem witness_missing_register : (Instr.cmovne 1 RNONE).wf = false ∧
    (Instr.andq RNONE 3).wf = false ∧ (Instr.xorq 3 RNONE).wf = false := by decide
theorem witness_halt_byte : State.reset.stat = .ok ∧
    State.reset.mem.read1 State.reset.pc = some 0x00 := by decide
/-- E-4 and E-1: a nop in the last byte of memory, and the address after it. -/
theorem witness_nop : (placed 0x1FFF [0x10]).mem.wf ∧ (placed 0x1FFF [0x10]).stat = .ok ∧
    (placed 0x1FFF [0x10]).mem.read1 0x1FFF = some 0x10 ∧
    (0x1FFF : Word).toNat + 1 = (placed 0x1FFF [0x10]).mem.size ∧
    ¬ (placed 0x1FFF [0x10]).mem.Valid 0x2000 1 := by decide
/-- Two registers that can be read, the same one twice, the first and the last. -/
theorem witness_registers : State.reset.readReg 0 = some 0 ∧ State.reset.readReg 14 = some 0 ∧
    (withRegs [(1, 0x8000000000000000)] State.reset).readReg 1 = some 0x8000000000000000 ∧
    (14 : RegId) ≠ RNONE ∧ (4 : RegId) = RSP := by decide
/-- L-4 and L-5: the highest valid address, and the next. -/
theorem witness_effective_address : State.reset.mem.wf ∧
    State.reset.mem.Valid (effectiveAddress 3 0 (withRegs [(3, 0x1FF8)] State.reset)) 8 ∧
    ¬ State.reset.mem.Valid (effectiveAddress 3 0 (withRegs [(3, 0x1FF9)] State.reset)) 8 ∧
    State.reset.mem.Valid (effectiveAddress RNONE 0x1FF8 State.reset) 8 ∧
    ¬ State.reset.mem.Valid (effectiveAddress 3 0xFFFFFFFFFFFFFFF8 State.reset) 8 := by decide
/-- C-3, C-4, C-6, C-7, P-7: the stack slots at both ends of memory. -/
theorem witness_stack_slots :
    State.reset.mem.Valid ((withRegs [(4, 0x2000)] State.reset).rsp - 8) 8 ∧
    ¬ State.reset.mem.Valid ((withRegs [(4, 0x2001)] State.reset).rsp - 8) 8 ∧
    State.reset.mem.Valid ((withRegs [(4, 8)] State.reset).rsp - 8) 8 ∧
    ¬ State.reset.mem.Valid ((withRegs [(4, 7)] State.reset).rsp - 8) 8 ∧
    ¬ State.reset.mem.Valid (State.reset.rsp - 8) 8 ∧ State.reset.mem.Valid State.reset.rsp 8 ∧
    State.reset.mem.Valid (withRegs [(4, 0x1FF8)] State.reset).rsp 8 ∧
    ¬ State.reset.mem.Valid (withRegs [(4, 0x1FF9)] State.reset).rsp 8 := by decide
/-- With `u := t`, the state the call leaves, the other hypotheses hold too. -/
theorem witness_call_ret : ∃ t, exec (.call 0x40) (withRegs [(4, 0x200)] State.reset) = .next t ∧
    t.stat = .ok ∧ t.mem.size = t.mem.size ∧ t.rsp = t.rsp ∧
    ∀ j < 8, t.mem.byteAt (t.rsp.toNat + j) = t.mem.byteAt (t.rsp.toNat + j) := by
  obtain ⟨t, h, h'⟩ := of_answers
    (o := exec (.call 0x40) (withRegs [(4, 0x200)] State.reset)) (p := fun t => t.stat = .ok)
    (by decide)
  exact ⟨t, h, h', rfl, rfl, fun _ _ => rfl⟩
theorem witness_push_pop : ∃ t, exec (.pushq 0) (withRegs [(4, 0x200)] State.reset) = .next t ∧
    t.stat = .ok ∧ (withRegs [(4, 0x200)] State.reset).readReg 0 = some 0 ∧ (3 : RegId) ≠ RNONE ∧
    (3 : RegId) ≠ RSP ∧ t.mem.size = t.mem.size ∧ t.rsp = t.rsp ∧
    ∀ j < 8, t.mem.byteAt (t.rsp.toNat + j) = t.mem.byteAt (t.rsp.toNat + j) := by
  obtain ⟨t, h, h'⟩ := of_answers
    (o := exec (.pushq 0) (withRegs [(4, 0x200)] State.reset)) (p := fun t => t.stat = .ok)
    (by decide)
  exact ⟨t, h, h', by decide, by decide, by decide, rfl, rfl, fun _ _ => rfl⟩
/-- Zero is stored over the next instruction: a halt. -/
theorem witness_store_fetch : State.reset.mem.wf ∧ State.reset.readReg 0 = some 0 ∧
    bytesOf 0 = encodeWith 0 .halt ++ [0, 0, 0, 0, 0, 0, 0] ∧
    effectiveAddress RNONE 10 State.reset = State.reset.pc + 10 ∧
    State.reset.mem.Valid (State.reset.pc + 10) 8 := by decide
theorem witness_exec_next : ∃ t, exec (.popq 3) State.reset = .next t ∧
    stores (.popq 3) = false ∧ setsPc (.popq 3) = false ∧ t.stat = .ok :=
  of_answers (p := fun t => stores (.popq 3) = false ∧ setsPc (.popq 3) = false ∧ t.stat = .ok)
    (by decide)
theorem witness_codes_alu : ∃ t, exec (.addq 0 1) State.reset = .next t ∧ isAlu (.addq 0 1) = true ∧
    t.stat = .ok :=
  of_answers (p := fun t => isAlu (.addq 0 1) = true ∧ t.stat = .ok) (by decide)
theorem witness_codes_alu_stop : ∃ t, exec (.addq 0 RNONE) State.reset = .next t ∧
    isAlu (.addq 0 RNONE) = true ∧ t.stat ≠ .ok :=
  of_answers (p := fun t => isAlu (.addq 0 RNONE) = true ∧ t.stat ≠ .ok) (by decide)
/-- Codes that differ and under which the predicate `e` agrees. -/
theorem witness_codes_read : (∃ t, exec (.je 0x40) State.reset = .next t ∧ isAlu (.je 0x40) = false) ∧
    predicateOf (.je 0x40) = some .e ∧
    condHolds .e { ZF := true, SF := true, OF := true } = condHolds .e State.reset.cc :=
  ⟨of_answers (p := fun _ => isAlu (.je 0x40) = false) (by decide), by decide⟩
theorem witness_register_write : (3 : RegId) ≠ RNONE ∧ (4 : RegId) ≠ 3 ∧
    State.reset.readReg RNONE = none := by decide
theorem witness_word : State.reset.mem.wf ∧ (0x1FF8 : Word).toNat + 8 ≤ State.reset.mem.size ∧
    State.reset.mem.size < (0x1FF9 : Word).toNat + 8 := by decide
theorem witness_canonical : (placed 5 [1]).mem.wf ∧ (put 5 [2] (placed 5 [1])).mem.wf ∧
    (put 5 [1] (put 5 [2] (placed 5 [1]))).mem = (placed 5 [1]).mem := by decide
theorem witness_run_limit : State.reset.steps ≤ 0 ∧ State.reset.stat = .ok ∧ State.reset.steps < 1 ∧
    { State.reset with stat := .hlt }.stat ≠ .ok ∧ (run 0 State.reset).stat = .ok ∧
    State.reset.steps = 0 := by decide
/-- R-4 and R-5: a larger limit after a run cut off at `OK`, the same limit twice, and each stopped status. -/
theorem witness_run_continued : 2 ≤ 3 ∧ 3 ≤ 3 ∧ (run 2 (placed 0 imageP1)).stat = .ok ∧
    (run 3 (run 2 (placed 0 imageP1))).stat = .hlt ∧
    { State.reset with stat := .hlt }.stat ≠ .ok ∧ { State.reset with stat := .adr }.stat ≠ .ok ∧
    { State.reset with stat := .ins }.stat ≠ .ok := by decide
theorem witness_report : (placed 0 imageP1).mem.size = (run 3 (placed 0 imageP1)).mem.size := by decide
/-- The rows and forms that the statements range over. -/
theorem witness_rows : (moveRows 0 1 State.reset.cc).length = 7 ∧ (aluRows 0 1 5 6).length = 4 ∧
    (jumpRows 0 State.reset.cc).length = 7 ∧ (signedJumpRows 0 5 6).length = 6 ∧
    Instr.jmp ∈ symbolForms 3 :=
  ⟨rfl, rfl, rfl, rfl, by simp [symbolForms]⟩
theorem witness_undefined_symbol :
    Uses ['a'] { label := none, item := some (.instr (.jmp 0) (some ['a'])) } ∧
    Uses ['a'] { label := some ['b'], item := some (.data 8 (.symbol ['a'])) } ∧
    (∀ l ∈ [({ label := some ['b'], item := some (.data 8 (.symbol ['a'])) } : SourceLine)],
      l.label ≠ some ['a']) :=
  ⟨.inl ⟨_, rfl⟩, .inr ⟨_, rfl⟩, by decide⟩

end Sys2Proof.Tests
end

