-- ==== Sys2Proof/Proofs/Scope.lean ====
section
/-! The obligations of spec/00_scope.md, settled. -/

namespace Sys2Proof.Proofs

open Sys2Proof.Machine

/-- Settles O42, clause by clause from the laws of the register file. -/
theorem registerReadsAsLastWritten : Obligations.RegisterReadsAsLastWritten := by
  intro s r r' v
  exact ⟨readReg_writeReg_self s v, readReg_writeReg_other s v, readReg_eq_none_iff s r⟩

end Sys2Proof.Proofs
end

/-! The obligations of spec/10_state.md, settled: what an instruction may change (registers, `pc`,
condition codes), what it may read, and where a completing step fetched its instruction. -/

namespace Sys2Proof.Proofs

open Sys2Proof.Machine Sys2Proof.Claims
open Host (Outcome)

/-! ### What one instruction may change

Said once for all 27: an instruction stops, with `stat` alone changed, or completes inside the tables
of R14, R16, R19 and R32. -/

/-- `t` is `s` after `i` has completed, as far as the tables of 10_state.md and R32 bound it. -/
structure CompletesInTables (i : Instr) (s t : State) : Prop where
  stat : t.stat = .ok
  regs : RegsKeptExcept (mayWrite i) s t
  pc : setsPc i = false → t.pc = s.pc + BitVec.ofNat 64 (encode i).length
  codes : isAlu i = false → t.cc = s.cc
  mem : stores i = false → t.mem = s.mem
  steps : t.steps = s.steps

theorem regsKept_writeReg (s : State) (r : RegId) (v pc : Word) :
    RegsKeptExcept [r] s ((s.writeReg r v).completed pc) :=
  fun _ hr => readReg_writeReg_other s v (by simpa using hr)

theorem exec_stops_or_completes {i : Instr} {s t : State} (h : exec i s = .next t) :
    (∃ c, t = s.stopped c) ∨ CompletesInTables i s t := by
  cases i with
  | halt => exact .inl ⟨.halt, (Outcome.next.inj h).symm⟩
  | nop =>
    obtain rfl := (Outcome.next.inj h).symm
    exact .inr ⟨rfl, fun _ _ => rfl, fun _ => rfl, fun _ => rfl, fun _ => rfl, rfl⟩
  | rrmovq rA rB | cmovle rA rB | cmovl rA rB | cmove rA rB | cmovne rA rB | cmovge rA rB
  | cmovg rA rB =>
    rcases moveIf_next h with ⟨a, b, -, -, rfl⟩ | ⟨-, rfl⟩
    · right
      split
      · exact ⟨rfl, regsKept_writeReg _ _ _ _, fun _ => rfl, fun _ => writeReg_cc ..,
          fun _ => writeReg_mem .., writeReg_steps ..⟩
      · exact ⟨rfl, fun _ _ => rfl, fun _ => rfl, fun _ => rfl, fun _ => rfl, rfl⟩
    · exact .inl ⟨_, rfl⟩
  | irmovq rB v =>
    rcases execIrmovq_next h with ⟨-, rfl⟩ | ⟨-, rfl⟩
    · exact .inr ⟨rfl, regsKept_writeReg _ _ _ _,
        fun _ => rfl, fun _ => writeReg_cc .., fun _ => writeReg_mem .., writeReg_steps ..⟩
    · exact .inl ⟨_, rfl⟩
  | rmmovq rA rB d =>
    rcases execRmmovq_next h with ⟨a, m, -, -, rfl⟩ | ⟨-, rfl⟩ | ⟨-, -, rfl⟩
    · exact .inr ⟨rfl, fun _ _ => rfl, fun _ => rfl, fun _ => rfl, nofun, rfl⟩
    all_goals exact .inl ⟨_, rfl⟩
  | mrmovq rA rB d =>
    rcases execMrmovq_next h with ⟨v, -, -, rfl⟩ | ⟨-, rfl⟩ | ⟨-, -, rfl⟩
    · exact .inr ⟨rfl, regsKept_writeReg _ _ _ _,
        fun _ => rfl, fun _ => writeReg_cc .., fun _ => writeReg_mem .., writeReg_steps ..⟩
    all_goals exact .inl ⟨_, rfl⟩
  | addq rA rB | subq rA rB | andq rA rB | xorq rA rB =>
    rcases aluStep_next h with ⟨a, b, -, -, rfl⟩ | ⟨-, rfl⟩
    · exact .inr ⟨rfl, regsKept_writeReg (s.setCodes _) _ _ _,
        fun _ => rfl, nofun, fun _ => writeReg_mem .., writeReg_steps ..⟩
    · exact .inl ⟨_, rfl⟩
  | jmp dest | jle dest | jl dest | je dest | jne dest | jge dest | jg dest =>
    obtain rfl := jumpIf_next h
    exact .inr ⟨rfl, fun _ _ => rfl, nofun, fun _ => rfl, fun _ => rfl, rfl⟩
  | call dest =>
    rcases execCall_next h with ⟨m, -, rfl⟩ | ⟨-, rfl⟩
    · exact .inr ⟨rfl, regsKept_writeReg (s.setMem m) _ _ _, nofun, fun _ => rfl, nofun, rfl⟩
    · exact .inl ⟨_, rfl⟩
  | ret =>
    rcases execRet_next h with ⟨v, -, rfl⟩ | ⟨-, rfl⟩
    · exact .inr ⟨rfl, regsKept_writeReg _ _ _ _, nofun, fun _ => rfl, fun _ => rfl, rfl⟩
    · exact .inl ⟨_, rfl⟩
  | pushq rA =>
    rcases execPushq_next h with ⟨a, m, -, -, rfl⟩ | ⟨-, rfl⟩ | ⟨-, -, rfl⟩
    · exact .inr ⟨rfl, regsKept_writeReg (s.setMem m) _ _ _, fun _ => rfl, fun _ => rfl, nofun, rfl⟩
    all_goals exact .inl ⟨_, rfl⟩
  | popq rA =>
    rcases execPopq_next h with ⟨v, -, -, rfl⟩ | ⟨-, rfl⟩ | ⟨-, -, rfl⟩
    · refine .inr ⟨rfl, fun r hr => ?_, fun _ => rfl, fun _ => ?_, fun _ => ?_, ?_⟩
      · obtain ⟨hrA, hrsp⟩ : r ≠ rA ∧ r ≠ RSP := by simpa [mayWrite] using hr
        rw [readReg_completed, readReg_setRsp_other _ _ hrsp, readReg_writeReg_other _ _ hrA]
      all_goals simp
    all_goals exact .inl ⟨_, rfl⟩

theorem exec_steps {i : Instr} {s t : State} (h : exec i s = .next t) : t.steps = s.steps := by
  rcases exec_stops_or_completes h with ⟨c, rfl⟩ | ht
  · rfl
  · exact ht.steps

theorem exec_cc {i : Instr} {s t : State} (h : exec i s = .next t) (hi : isAlu i = false) :
    t.cc = s.cc := by
  rcases exec_stops_or_completes h with ⟨c, rfl⟩ | ht
  · rfl
  · exact ht.codes hi

/-- A stop leaves the condition codes, at the fetch and in an instruction's meaning alike (R146). -/
theorem step_cc_of_stopped {s t : State} (h : step s = .next t) (ht : t.stat ≠ .ok) :
    t.cc = s.cc := by
  obtain ⟨-, ⟨e, -, rfl⟩ | ⟨i, -, h⟩⟩ := step_next h
  · rfl
  · rcases exec_stops_or_completes h with ⟨c, rfl⟩ | hc
    · rfl
    · exact absurd hc.stat ht

/-! ### What one instruction does not read

Two runs: from `s`, and from `s` with other condition codes, status and step counter. -/

/-- `s` with other condition codes, another status and another step counter. -/
def withUnread (c : CondCodes) (x : Status) (n : Nat) (s : State) : State :=
  { s with cc := c, stat := x, steps := n }

/-- Both runs answer a next state, and the second run's is the first's but for the condition codes and
the step counter, which it still has from its start. -/
def EndAlike (c : CondCodes) (n : Nat) (o o' : Result) : Prop :=
  ∃ t, o = .next t ∧ o' = .next { t with cc := c, steps := n }

section TwoRuns

variable {c : CondCodes} {x : Status} {n : Nat} {s : State}

theorem writeReg_withUnread (r : RegId) (v : Word) :
    (withUnread c x n s).writeReg r v = withUnread c x n (s.writeReg r v) := by
  unfold State.writeReg; split <;> rfl

theorem complete_endAlike (pc : Word) (s : State) :
    EndAlike c n (complete pc s) (complete pc (withUnread c x n s)) := ⟨_, rfl, rfl⟩

theorem raise_endAlike (e : Cause) (s : State) :
    EndAlike c n (raise e s) (raise e (withUnread c x n s)) := ⟨_, rfl, rfl⟩

theorem complete_writeReg_endAlike (pc : Word) (r : RegId) (v : Word) (s : State) :
    EndAlike c n (complete pc (s.writeReg r v))
      (complete pc ((withUnread c x n s).writeReg r v)) := by
  rw [writeReg_withUnread]; exact complete_endAlike pc _

theorem withReg_endAlike {r : RegId} {k k' : Word → Result}
    (h : ∀ v, EndAlike c n (k v) (k' v)) :
    EndAlike c n (withReg r s k) (withReg r (withUnread c x n s) k') := by
  rcases hr : s.readReg r with _ | v
  · obtain rfl := (readReg_eq_none_iff s r).mp hr
    exact raise_endAlike _ s
  · rw [withReg_some hr, withReg_some (s := withUnread c x n s) hr]; exact h v

theorem withRead8_endAlike {a : Word} {k k' : Word → Result}
    (h : ∀ v, EndAlike c n (k v) (k' v)) :
    EndAlike c n (withRead8 a s k) (withRead8 a (withUnread c x n s) k') := by
  rcases hr : s.mem.read8 a with _ | v
  · have hv := read8_eq_none_iff.mp hr
    rw [withRead8_invalid hv, withRead8_invalid (s := withUnread c x n s) hv]
    exact raise_endAlike _ s
  · rw [withRead8_some hr, withRead8_some (s := withUnread c x n s) hr]; exact h v

theorem withWrite8_endAlike {a v : Word} {k k' : State → Result}
    (h : ∀ m, EndAlike c n (k (s.setMem m)) (k' (withUnread c x n (s.setMem m)))) :
    EndAlike c n (withWrite8 a v s k) (withWrite8 a v (withUnread c x n s) k') := by
  rcases hw : s.mem.write8 a v with _ | m
  · have hv := write8_eq_none_iff.mp hw
    rw [withWrite8_invalid hv, withWrite8_invalid (s := withUnread c x n s) hv]
    exact raise_endAlike _ s
  · rw [withWrite8_some hw, withWrite8_some (s := withUnread c x n s) hw]; exact h m

theorem moveIf_endAlike {p : Pred} (hp : condHolds p c = condHolds p s.cc) (rA rB : RegId) :
    EndAlike c n (moveIf p rA rB s) (moveIf p rA rB (withUnread c x n s)) :=
  withReg_endAlike fun a => withReg_endAlike fun _ => by
    rw [show condHolds p (withUnread c x n s).cc = condHolds p s.cc from hp]
    split
    · exact complete_writeReg_endAlike ..
    · exact complete_endAlike ..

theorem jumpIf_endAlike {p : Pred} (hp : condHolds p c = condHolds p s.cc) (dest : Word) :
    EndAlike c n (jumpIf p dest s) (jumpIf p dest (withUnread c x n s)) := by
  rw [jumpIf, jumpIf, show condHolds p (withUnread c x n s).cc = condHolds p s.cc from hp]
  exact complete_endAlike ..

/-- What `call` and `pushq` end in: a word stored below the stack, which becomes the stack pointer. -/
theorem push_endAlike (pc sp v : Word) :
    EndAlike c n (withWrite8 sp v s fun s' => complete pc (s'.setRsp sp))
      (withWrite8 sp v (withUnread c x n s) fun s' => complete pc (s'.setRsp sp)) :=
  withWrite8_endAlike fun _ => complete_writeReg_endAlike ..

/-- Outside the ALU, codes that agree on the instruction's own predicate, the status and the counter
make no difference (R19, R21, R22). -/
theorem exec_endAlike {i : Instr} (hi : isAlu i = false)
    (hp : ∀ p, predicateOf i = some p → condHolds p c = condHolds p s.cc) :
    EndAlike c n (exec i s) (exec i (withUnread c x n s)) := by
  cases i with
  | halt => exact raise_endAlike ..
  | nop => exact complete_endAlike ..
  | rrmovq rA rB | cmovle rA rB | cmovl rA rB | cmove rA rB | cmovne rA rB | cmovge rA rB
  | cmovg rA rB => exact moveIf_endAlike (hp _ rfl) rA rB
  | irmovq rB v => exact withReg_endAlike fun _ => complete_writeReg_endAlike ..
  | rmmovq rA rB d =>
    exact withReg_endAlike fun _ => withWrite8_endAlike fun _ => complete_endAlike ..
  | mrmovq rA rB d =>
    exact withReg_endAlike fun _ => withRead8_endAlike fun _ => complete_writeReg_endAlike ..
  | addq rA rB | subq rA rB | andq rA rB | xorq rA rB => cases hi
  | jmp dest | jle dest | jl dest | je dest | jne dest | jge dest | jg dest =>
    exact jumpIf_endAlike (hp _ rfl) dest
  | call dest =>
    exact push_endAlike dest (s.rsp - 8) (s.pc + 9)
  | ret => exact withRead8_endAlike fun _ => complete_writeReg_endAlike ..
  | pushq rA =>
    exact withReg_endAlike fun v => push_endAlike (s.pc + 2) (s.rsp - 8) v
  | popq rA =>
    refine withReg_endAlike fun _ => withRead8_endAlike fun v => ?_
    rw [writeReg_withUnread]
    exact complete_writeReg_endAlike ..

theorem exec_eq_aluStep {i : Instr} (hi : isAlu i = true) :
    ∃ op rA rB, exec i = aluStep op rA rB := by
  cases i with
  | addq rA rB => exact ⟨.add, rA, rB, rfl⟩
  | subq rA rB => exact ⟨.sub, rA, rB, rfl⟩
  | andq rA rB => exact ⟨.and, rA, rB, rfl⟩
  | xorq rA rB => exact ⟨.xor, rA, rB, rfl⟩
  | _ => cases hi

theorem aluStep_two_runs (op : AluOp) (rA rB : RegId) :
    ∃ t, aluStep op rA rB s = .next t ∧
      ((t.stat = .ok ∧ aluStep op rA rB (withUnread c x n s) = .next { t with steps := n }) ∨
       (t = s.stopped .invalidInstruction ∧ aluStep op rA rB (withUnread c x n s) =
          .next ((withUnread c x n s).stopped .invalidInstruction))) := by
  rcases hA : s.readReg rA with _ | a
  · obtain rfl := (readReg_eq_none_iff s rA).mp hA
    exact ⟨_, rfl, .inr ⟨rfl, rfl⟩⟩
  rw [aluStep, aluStep, withReg_some hA, withReg_some (s := withUnread c x n s) hA]
  rcases hB : s.readReg rB with _ | b
  · obtain rfl := (readReg_eq_none_iff s rB).mp hB
    exact ⟨_, rfl, .inr ⟨rfl, rfl⟩⟩
  rw [withReg_some hB, withReg_some (s := withUnread c x n s) hB]
  refine ⟨_, rfl, .inl ⟨rfl, ?_⟩⟩
  rw [show (withUnread c x n s).setCodes (aluFlags op a b) =
    withUnread (aluFlags op a b) x n (s.setCodes (aluFlags op a b)) from rfl, writeReg_withUnread,
    complete_eq]
  congr 1
  simp [State.completed, withUnread]

/-- An ALU instruction that completes writes all three codes whatever they were; one that stops keeps
those it started with. Status and counter make no difference either way (R19, R21, R22, R110). -/
theorem exec_alu_two_runs {i : Instr} (hi : isAlu i = true) (c : CondCodes) (x : Status) (n : Nat)
    (s : State) :
    ∃ t, exec i s = .next t ∧
      ((t.stat = .ok ∧ exec i (withUnread c x n s) = .next { t with steps := n }) ∨
       (t = s.stopped .invalidInstruction ∧ exec i (withUnread c x n s) =
          .next ((withUnread c x n s).stopped .invalidInstruction))) := by
  obtain ⟨op, rA, rB, h⟩ := exec_eq_aluStep hi
  rw [h]; exact aluStep_two_runs op rA rB

end TwoRuns

/-! ### Where a completing step fetched its instruction -/

theorem valid_of_le_bytesFrom {m : Memory} (hm : m.wf) {n k : Nat} {a : Word} (hk : 0 < k)
    (h : k ≤ (m.bytesFrom a n).length) : m.Valid a k := by
  induction n generalizing a k with
  | zero => simp [Memory.bytesFrom] at h; omega
  | succ n ih =>
    rw [Memory.bytesFrom] at h
    split at h
    · simp at h; omega
    · next b hb =>
      have h1 := (read1_eq_some_iff.mp hb).1
      have hnext : (a + 1).toNat = a.toNat + 1 := by
        have := hm.1.2
        bv_omega
      rcases Nat.eq_or_lt_of_le hk with rfl | hk1
      · exact h1
      · rw [List.length_cons] at h
        have := ih (a := a + 1) (k := k - 1) (by omega) (by omega)
        omega

/-- The encodings of what an opcode selects have the length of its format (R50). -/
def EncodesInFormat : Shape → Prop
  | .plain i => (encode i).length = 1
  | .regs f => ∀ rA rB, (encode (f rA rB)).length = 2
  | .target f => ∀ c, (encode (f c)).length = 9
  | .regsConst f => ∀ rA rB c, (encode (f rA rB c)).length = 10

theorem encodesInFormat_of_shapeOf {b0 : Byte} {shape : Shape} (h : shapeOf b0 = some shape) :
    EncodesInFormat shape := by
  unfold shapeOf at h
  split at h <;> cases h <;> simp [EncodesInFormat, encode, encodeWith]

theorem eight_le_of_wordAtFront {bs : List Byte} {v : Word} (h : wordAtFront bs = some v) :
    8 ≤ bs.length := by
  obtain ⟨rest, rfl⟩ := (wordAtFront_eq_some_iff bs v).mp h
  simp

theorem encode_length_le_of_operands {shape : Shape} (hs : EncodesInFormat shape) {bs : List Byte}
    {i : Instr} (h : shape.operands bs = .ok i) : (encode i).length ≤ bs.length + 1 := by
  cases shape with
  | plain j => cases h; rw [hs]; omega
  | regs f =>
    cases bs with
    | nil => cases h
    | cons b1 bs => cases h; rw [hs]; simp
  | target f =>
    simp only [Shape.operands] at h
    split at h
    · cases h
    · next c hc =>
      cases h; rw [hs]
      have := eight_le_of_wordAtFront hc
      omega
  | regsConst f =>
    cases bs with
    | nil => cases h
    | cons b1 bs =>
      simp only [Shape.operands] at h
      split at h
      · cases h
      · next c hc =>
        cases h; rw [hs, List.length_cons]
        have := eight_le_of_wordAtFront hc
        omega

/-- The decoder answers an instruction only where all its bytes are there (R57). -/
theorem encode_length_le_of_decode {bs : List Byte} {i : Instr} (h : decode bs = .ok i) :
    (encode i).length ≤ bs.length := by
  cases bs with
  | nil => cases h
  | cons b0 bs =>
    rw [decode] at h
    split at h
    · cases h
    · next shape hshape =>
      exact encode_length_le_of_operands (encodesInFormat_of_shapeOf hshape) h

theorem encode_length_pos (i : Instr) : 0 < (encode i).length := by
  cases i <;> simp [encode, encodeWith]

theorem valid_of_fetchDecode {s : State} (hm : s.mem.wf) {i : Instr} (h : fetchDecode s = .ok i) :
    s.mem.Valid s.pc (encode i).length :=
  valid_of_le_bytesFrom hm (encode_length_pos i) (encode_length_le_of_decode h)

/-! ### The obligations -/

/-- Settles O8: a failed fetch stops, so the step decoded an instruction, whose bytes were all read
inside memory; memory ends below 2^63, so the address after them does not wrap. -/
theorem completedStepFetchedInsideMemory : Obligations.CompletedStepFetchedInsideMemory := by
  intro s t hm h ht
  obtain ⟨-, ⟨e, -, rfl⟩ | ⟨i, hi, -⟩⟩ := step_next h
  · exact absurd ht (stopped_stat_ne_ok s.tick _)
  · have hv := valid_of_fetchDecode hm hi
    have hsize := hm.1.2
    refine ⟨i, hi, hv, ?_⟩
    rw [BitVec.toNat_add, BitVec.toNat_ofNat]
    omega

/-- Settles O37: a stop changes no register, a completion only those of the table. -/
theorem registersChangeOnlyAsTabled : Obligations.RegistersChangeOnlyAsTabled := by
  intro i s t h
  rcases exec_stops_or_completes h with ⟨c, rfl⟩ | ht
  · exact fun _ _ => rfl
  · exact ht.regs

/-- Settles O39: what does not stop completes as the table of lengths says. -/
theorem pcAdvancesByLength : Obligations.PcAdvancesByLength := by
  intro i s t hi h hok
  rcases exec_stops_or_completes h with ⟨c, rfl⟩ | ht
  · exact absurd hok (stopped_stat_ne_ok s c)
  · exact ht.pc hi

/-- Settles O40: the first and the last clause from what an instruction may change, the two about other
codes from two runs with the same status and counter. -/
theorem codesWrittenByAluReadThroughPredicates :
    Obligations.CodesWrittenByAluReadThroughPredicates := by
  refine ⟨fun i s t h hi => exec_cc h hi, fun i s t c h hi => ?_, fun i s t c h hi hp => ?_,
    fun s t h ht => step_cc_of_stopped h ?_⟩
  · obtain ⟨t', h', hruns⟩ := exec_alu_two_runs hi c s.stat s.steps s
    obtain rfl := Outcome.next.inj (h'.symm.trans h)
    rcases hruns with ⟨hok, h2⟩ | ⟨rfl, h2⟩
    · exact ⟨fun _ => h2.trans (by rw [← exec_steps h]), fun hne => absurd hok hne⟩
    · exact ⟨fun hok => absurd hok (stopped_stat_ne_ok s _), fun _ => h2⟩
  · obtain ⟨t', h', h2⟩ := exec_endAlike (x := s.stat) (n := s.steps) hi hp
    obtain rfl := Outcome.next.inj (h'.symm.trans h)
    exact h2.trans (by rw [← exec_steps h])
  · rcases ht with ht | ht <;> simp [ht]

/-- Settles O41: two runs with the same codes, for the ALU and for the rest. -/
theorem statusAndStepsAreNotObservable : Obligations.StatusAndStepsAreNotObservable := by
  intro i s x n
  cases hi : isAlu i with
  | true =>
    obtain ⟨t, h, ⟨-, h2⟩ | ⟨rfl, h2⟩⟩ := exec_alu_two_runs hi s.cc x n s
    all_goals exact ⟨_, h, exec_steps h, _, h2, rfl, rfl, rfl, rfl, rfl, rfl⟩
  | false =>
    obtain ⟨t, h, h2⟩ := exec_endAlike (c := s.cc) (x := x) (n := n) hi (fun _ _ => rfl)
    exact ⟨t, h, exec_steps h, _, h2, rfl, rfl, (exec_cc h hi).symm, rfl, rfl, rfl⟩

/-- Settles O44: it is the extensionality law of canonical memories. -/
theorem canonicalMemoryIsDeterminedByItsBytes :
    Obligations.CanonicalMemoryIsDeterminedByItsBytes := by
  intro m m' hm hm' hsize hbytes
  exact Memory.ext_bytes hm hm' hsize hbytes

end Sys2Proof.Proofs

/-! The obligations of spec/20_memory.md, settled: an eight-byte write and its reads, what a step that
stops or stores may change, and that the fetch sees what a store wrote. -/

namespace Sys2Proof.Proofs

open Sys2Proof.Machine Sys2Proof.Claims

/-! ### Reads and writes of a word -/

theorem exists_write8 {m : Memory} {a : Word} (h : m.Valid a 8) (v : Word) :
    ∃ m', m.write8 a v = some m' :=
  ⟨_, write8_eq_some_iff.mpr ⟨h, rfl⟩⟩

/-- Writing the word that already stands at an address changes nothing. -/
theorem write8_of_read8 {m : Memory} {a v : Word} (hm : m.wf) (h : m.read8 a = some v) :
    m.write8 a v = some m := by
  obtain ⟨hv, hbytes⟩ := read8_eq_some_iff.mp h
  obtain ⟨m', hw⟩ := exists_write8 hv v
  have hsame : ∀ k, m'.byteAt k = m.byteAt k := fun k => by
    by_cases hk : k < a.toNat ∨ a.toNat + 8 ≤ k
    · exact byteAt_write8_outside hw hk
    · obtain ⟨j, rfl⟩ := Nat.exists_eq_add_of_le (show a.toNat ≤ k by omega)
      rw [byteAt_write8_inside hm hw (by omega), hbytes j (by omega)]
  rw [hw, Memory.ext_bytes (wf_write8 hm hw) hm (write8_size hw) hsame]

/-- The addresses of an access that lies inside memory do not wrap (R34). -/
theorem toNat_add_of_valid {m : Memory} (hm : m.wf) {a : Word} {n j : Nat} (h : m.Valid a n)
    (hj : j ≤ n) : (a + BitVec.ofNat 64 j).toNat = a.toNat + j := by
  have hsize := hm.1.2
  rw [BitVec.toNat_add, BitVec.toNat_ofNat]
  omega

/-- The bytes of a word that reads at `pc` stand there. -/
theorem bytesStandAtPc_of_read8 {s : State} (hm : s.mem.wf) {v : Word}
    (h : s.mem.read8 s.pc = some v) : BytesStandAtPc (bytesOf v) s := by
  intro j hj
  obtain ⟨hv, hbytes⟩ := read8_eq_some_iff.mp h
  have hj8 : j < 8 := hj
  have haddr := toNat_add_of_valid hm hv (Nat.le_of_lt hj8)
  have hbyte : byteOf v j = (bytesOf v)[j]'hj :=
    Option.some.inj ((byteOf_eq_bytesOf v hj8).symm.trans (List.getElem?_eq_getElem hj))
  exact read1_eq_some_iff.mpr ⟨by omega, by rw [haddr, hbytes j hj8, hbyte]⟩

/-! ### The decoder on the bytes of an instruction, format by format (R50) -/

section Formats

variable {b0 : Byte} {rA rB : RegId} {c : Word} (rest : List Byte)

theorem decode_plain {i : Instr} (h : shapeOf b0 = some (.plain i)) :
    decode (b0 :: rest) = .ok i := by
  rw [decode, h]; rfl

theorem decode_regs {f : RegId → RegId → Instr} (h : shapeOf b0 = some (.regs f)) :
    decode (b0 :: regByte rA rB :: rest) = .ok (f rA rB) := by
  simp [decode, h, Shape.operands]

theorem decode_target {f : Word → Instr} (h : shapeOf b0 = some (.target f)) :
    decode (b0 :: (bytesOf c ++ rest)) = .ok (f c) := by
  simp [decode, h, Shape.operands]

theorem decode_regsConst {f : RegId → RegId → Word → Instr}
    (h : shapeOf b0 = some (.regsConst f)) :
    decode (b0 :: regByte rA rB :: (bytesOf c ++ rest)) = .ok (f rA rB c) := by
  simp [decode, h, Shape.operands]

end Formats

/-- The decoder reads an instruction from the front of any list that begins with its bytes. -/
theorem decode_encodeWith_append (x : RegId) (i : Instr) (rest : List Byte) :
    decode (encodeWith x i ++ rest) = .ok i := by
  cases i with
  | halt | nop | ret => exact decode_plain rest rfl
  | rrmovq rA rB | cmovle rA rB | cmovl rA rB | cmove rA rB | cmovne rA rB | cmovge rA rB
  | cmovg rA rB | addq rA rB | subq rA rB | andq rA rB | xorq rA rB => exact decode_regs rest rfl
  | pushq rA => exact decode_regs (f := fun rA _ => .pushq rA) rest rfl
  | popq rA => exact decode_regs (f := fun rA _ => .popq rA) rest rfl
  | jmp dest | jle dest | jl dest | je dest | jne dest | jge dest | jg dest | call dest =>
    exact decode_target rest rfl
  | irmovq rB v => exact decode_regsConst (f := fun _ rB v => .irmovq rB v) rest rfl
  | rmmovq rA rB d | mrmovq rA rB d => exact decode_regsConst rest rfl

/-! ### The fetch -/

theorem encodeWith_length_le (x : RegId) (i : Instr) : (encodeWith x i).length ≤ maxLength := by
  cases i <;> simp [encodeWith, maxLength]

/-- Bytes that read one after the other from `a` on begin what the fetch collects there. -/
theorem bytesFrom_eq_append {m : Memory} {bs : List Byte} {a : Word} {n : Nat}
    (hn : bs.length ≤ n)
    (h : ∀ (k : Nat) (hk : k < bs.length), m.read1 (a + BitVec.ofNat 64 k) = some bs[k]) :
    ∃ rest, m.bytesFrom a n = bs ++ rest := by
  induction bs generalizing a n with
  | nil => exact ⟨_, rfl⟩
  | cons b bs ih =>
    obtain ⟨n, rfl⟩ : ∃ n', n = n' + 1 := ⟨n - 1, by simp at hn; omega⟩
    have hb : m.read1 a = some b := 
      (congrArg m.read1 (BitVec.add_zero a)).symm.trans (h 0 (Nat.succ_pos _))
    obtain ⟨rest, hrest⟩ := ih (a := a + 1) (n := n) (by simpa using hn) fun k hk => by
      have := h (k + 1) (by simpa using hk)
      rwa [BitVec.ofNat_add, BitVec.add_comm (BitVec.ofNat 64 k), ← BitVec.add_assoc] at this
    exact ⟨rest, by rw [Memory.bytesFrom, hb, List.cons_append, ← hrest]⟩

/-- Where the bytes of an instruction stand at `pc`, it is what the fetch answers (R57). -/
theorem fetchDecode_of_bytesStandAtPc {s : State} {x : RegId} {i : Instr}
    (h : BytesStandAtPc (encodeWith x i) s) : fetchDecode s = .ok i := by
  obtain ⟨rest, hrest⟩ := bytesFrom_eq_append (encodeWith_length_le x i) h
  rw [fetchDecode, hrest, decode_encodeWith_append]

theorem bytesStandAtPc_of_append {bs rest : List Byte} {s : State}
    (h : BytesStandAtPc (bs ++ rest) s) : BytesStandAtPc bs s := by
  intro k hk
  have := h k (by rw [List.length_append]; omega)
  rwa [List.getElem_append_left hk] at this

/-! ### What a step that stops, and an instruction that stores, may change -/

/-- A step that does not end in `OK` has counted itself and recorded its cause, and done nothing else
(R146), at the fetch and in an instruction's meaning alike. -/
theorem step_stopped {s t : State} (h : step s = .next t) (ht : t.stat ≠ .ok) :
    ∃ c, t = s.tick.stopped c := by
  obtain ⟨-, ⟨e, -, rfl⟩ | ⟨i, -, h⟩⟩ := step_next h
  · exact ⟨causeOf e, rfl⟩
  · rcases exec_stops_or_completes h with hc | hc
    · exact hc
    · exact absurd hc.stat ht

theorem exec_mem {i : Instr} {s t : State} (h : exec i s = .next t) (hi : stores i = false) :
    t.mem = s.mem := by
  rcases exec_stops_or_completes h with ⟨c, rfl⟩ | hc
  · rfl
  · exact hc.mem hi

theorem exec_mem_size {i : Instr} {s t : State} (h : exec i s = .next t) :
    t.mem.size = s.mem.size := by
  cases hi : stores i with
  | false => rw [exec_mem h hi]
  | true =>
    cases i with
    | rmmovq rA rB d =>
      rcases execRmmovq_next h with ⟨a, m, -, hm, rfl⟩ | ⟨-, rfl⟩ | ⟨-, -, rfl⟩
      · exact write8_size hm
      all_goals rfl
    | call dest =>
      rcases execCall_next h with ⟨m, hm, rfl⟩ | ⟨-, rfl⟩
      · exact write8_size hm
      · rfl
    | pushq rA =>
      rcases execPushq_next h with ⟨a, m, -, hm, rfl⟩ | ⟨-, rfl⟩ | ⟨-, -, rfl⟩
      · exact write8_size hm
      all_goals rfl
    | _ => cases hi

theorem execRmmovq_of_write8 {s : State} {rA rB : RegId} {d a : Word} {m : Memory}
    (ha : s.readReg rA = some a) (hm : s.mem.write8 (effectiveAddress rB d s) a = some m) :
    exec (.rmmovq rA rB d) s = .next ((s.setMem m).completed (s.pc + 10)) := by
  show execRmmovq rA rB d s = _
  rw [execRmmovq, withReg_some ha, withWrite8_some hm, complete_eq]

/-! ### The obligations -/

/-- Settles O10: a step that does not end in `OK` is its counted start with the cause's status. -/
theorem addressFaultChangesOnlyStatAndSteps : Obligations.AddressFaultChangesOnlyStatAndSteps := by
  intro s t h ht
  obtain ⟨c, rfl⟩ := step_stopped h (by simp [ht])
  have hc : c.status = .adr := ht
  exact ⟨by rw [State.stopped, hc]; rfl, rfl⟩

/-- Settles O36: the stored word reads at the new `pc`, so its bytes stand there and the fetch decodes the
instruction they begin with. -/
theorem storeIsSeenByNextFetch : Obligations.StoreIsSeenByNextFetch := by
  intro s rA rB x d a i rest hwf ha hbytes hea hv
  obtain ⟨m, hm⟩ := exists_write8 hv a
  refine ⟨_, execRmmovq_of_write8 ha (hea ▸ hm), step_of_fetch rfl ?_⟩
  have hstand : BytesStandAtPc (bytesOf a) ((s.setMem m).completed (s.pc + 10)) :=
    bytesStandAtPc_of_read8 (wf_write8 hwf hm) (read8_write8_self hwf hm)
  rw [hbytes] at hstand
  exact fetchDecode_of_bytesStandAtPc (bytesStandAtPc_of_append hstand)

/-- Settles O38: memory changes in the three storing instructions alone, and a store keeps the capacity. -/
theorem onlyStoringInstructionsChangeMemory : Obligations.OnlyStoringInstructionsChangeMemory := by
  refine ⟨fun i s t h hi => ?_, fun s t h => ?_⟩
  · have hmem := exec_mem h hi
    exact ⟨by rw [hmem], fun k => by rw [hmem]⟩
  · obtain ⟨-, ⟨e, -, rfl⟩ | ⟨i, -, h⟩⟩ := step_next h
    · rfl
    · exact exec_mem_size (s := s.tick) h

/-- Settles O43: the laws of the eight-byte write, and the write of a word that already stands. -/
theorem wordWrittenReadsBack : Obligations.WordWrittenReadsBack := by
  intro m a v hm
  refine ⟨fun hv => ?_, fun hv => ?_⟩
  · obtain ⟨m', hw⟩ := exists_write8 hv v
    have hm' := wf_write8 hm hw
    have hread := read8_write8_self hm hw
    exact ⟨m', hw, fun _ hj => byteAt_write8_inside hm hw hj,
      fun _ hk => byteAt_write8_outside hw hk, hread, write8_of_read8 hm' hread, write8_size hw, hm'⟩
  · have hinvalid : ¬ m.Valid a 8 := Nat.not_le.mpr hv
    exact ⟨write8_eq_none_iff.mpr hinvalid, read8_eq_none_iff.mpr hinvalid⟩

end Sys2Proof.Proofs

/-! The obligations of spec/30_encoding.md about bytes, settled: the decoder against the encoder, the
length by the class nibble, and a register field that names no register. -/

namespace Sys2Proof.Proofs

open Sys2Proof.Machine Sys2Proof.Claims

/-! ### From decoded bytes back to an encoding -/

/-- What an opcode byte selects is spelt by that byte and the operands of its format. Where a slot is
absent it is the low nibble in format `R` and the high one in format `I` (R54, R61). -/
def SpeltWith (b0 : Byte) : Shape → Prop
  | .plain i => encodeWith RNONE i = [b0]
  | .regs f => ∀ rA rB, encodeWith rB (f rA rB) = [b0, regByte rA rB]
  | .target f => ∀ c, encodeWith RNONE (f c) = b0 :: bytesOf c
  | .regsConst f => ∀ rA rB c, encodeWith rA (f rA rB c) = b0 :: regByte rA rB :: bytesOf c

theorem speltWith_of_shapeOf {b0 : Byte} {shape : Shape} (h : shapeOf b0 = some shape) :
    SpeltWith b0 shape := by
  unfold shapeOf at h
  split at h <;> cases h <;> simp [SpeltWith, encodeWith]

theorem eq_encodeWith_append_of_operands {b0 : Byte} {shape : Shape} (hs : SpeltWith b0 shape)
    {bs : List Byte} {i : Instr} (h : shape.operands bs = .ok i) :
    ∃ x rest, b0 :: bs = encodeWith x i ++ rest := by
  cases shape with
  | plain j =>
    cases h
    exact ⟨RNONE, bs, by rw [hs]; rfl⟩
  | regs f =>
    cases bs with
    | nil => cases h
    | cons b1 bs =>
      cases h
      exact ⟨_, bs, by rw [hs (highNibble b1), regByte_nibbles]; rfl⟩
  | target f =>
    simp only [Shape.operands] at h
    split at h
    · cases h
    · next c hc =>
      cases h
      obtain ⟨rest, rfl⟩ := (wordAtFront_eq_some_iff bs c).mp hc
      exact ⟨_, rest, by rw [hs c]; rfl⟩
  | regsConst f =>
    cases bs with
    | nil => cases h
    | cons b1 bs =>
      simp only [Shape.operands] at h
      split at h
      · cases h
      · next c hc =>
        cases h
        obtain ⟨rest, rfl⟩ := (wordAtFront_eq_some_iff bs c).mp hc
        exact ⟨_, rest, by rw [hs (highNibble b1), regByte_nibbles]; rfl⟩

/-- The bytes that decode to an instruction are its encodings, followed by anything (R63). -/
theorem decode_eq_ok_iff {bs : List Byte} {i : Instr} :
    decode bs = .ok i ↔ ∃ x rest, bs = encodeWith x i ++ rest := by
  constructor
  · intro h
    cases bs with
    | nil => cases h
    | cons b0 bs =>
      rw [decode] at h
      split at h
      · cases h
      · next shape hshape =>
        exact eq_encodeWith_append_of_operands (speltWith_of_shapeOf hshape) h
  · rintro ⟨x, rest, rfl⟩
    exact decode_encodeWith_append x i rest

/-! ### The absent slot (R61) -/

theorem regByte_inj {a b c d : RegId} : regByte a b = regByte c d ↔ a = c ∧ b = d := by
  constructor
  · intro h
    have hhigh := congrArg highNibble h
    have hlow := congrArg lowNibble h
    simp only [highNibble_regByte, lowNibble_regByte] at hhigh hlow
    exact ⟨hhigh, hlow⟩
  · rintro ⟨rfl, rfl⟩; rfl

theorem encodeWith_of_no_absentSlot {i : Instr} (hi : hasAbsentSlot i = false) (x : RegId) :
    encodeWith x i = encode i := by
  cases i with
  | irmovq | pushq | popq => cases hi
  | _ => rfl

theorem encodeWith_slot_inj {i : Instr} (hi : hasAbsentSlot i = true) {x y : RegId}
    (h : encodeWith x i = encodeWith y i) : x = y := by
  cases i with
  | irmovq rB v | pushq rA | popq rA => simpa [encodeWith, regByte_inj] using h
  | _ => cases hi

/-! ### The length by the class nibble (R56) -/

section ClassLength

open Sys2Proof.Laws.ClassLength

/-- The model's lemma on class and length, for every instruction. -/
theorem classLength (i : Instr) : Statement i := by
  cases i
  exacts [halt, nop, rrmovq _ _, cmovle _ _, cmovl _ _, cmove _ _, cmovne _ _, cmovge _ _,
    cmovg _ _, irmovq _ _, rmmovq _ _ _, mrmovq _ _ _, addq _ _, subq _ _, andq _ _, xorq _ _,
    jmp _, jle _, jl _, je _, jne _, jge _, jg _, call _, ret, pushq _, popq _]

end ClassLength

theorem encodeWith_length_of_cons {b0 : Byte} {bs rest : List Byte} {x : RegId} {i : Instr}
    (h : b0 :: bs = encodeWith x i ++ rest) :
    (encodeWith x i).length = lengthOfClass (highNibble b0) := by
  obtain ⟨b, tail, henc, hlen, -⟩ := classLength i x
  rw [henc, List.cons_append] at h
  rw [hlen, (List.cons.inj h).1]

theorem decode_take_classLength {b0 : Byte} {bs : List Byte} {i : Instr}
    (h : decode (b0 :: bs) = .ok i) :
    decode ((b0 :: bs).take (lengthOfClass (highNibble b0))) = .ok i := by
  obtain ⟨x, rest, hbs⟩ := decode_eq_ok_iff.mp h
  rw [← encodeWith_length_of_cons hbs, hbs, List.take_left]
  exact decode_eq_ok_iff.mpr ⟨x, [], (List.append_nil _).symm⟩

theorem classLength_le_of_decode {b0 : Byte} {bs : List Byte} {i : Instr}
    (h : decode (b0 :: bs) = .ok i) : lengthOfClass (highNibble b0) ≤ (b0 :: bs).length := by
  obtain ⟨x, rest, hbs⟩ := decode_eq_ok_iff.mp h
  rw [← encodeWith_length_of_cons hbs, hbs, List.length_append]
  omega

theorem decode_take_of_lt {b0 : Byte} {bs : List Byte} {n : Nat}
    (hn : n < lengthOfClass (highNibble b0)) : ∃ e, decode ((b0 :: bs).take n) = .error e := by
  rcases hd : decode ((b0 :: bs).take n) with e | j
  · exact ⟨e, rfl⟩
  · cases n with
    | zero => cases hd
    | succ n =>
      have hle : _ ≤ ((b0 :: bs).take (n + 1)).length := classLength_le_of_decode hd
      rw [List.length_take] at hle
      omega

/-! ### A register field that names no register (R60) -/

theorem named_eq_false_iff {r : RegId} : RegId.named r = false ↔ r = RNONE := by simp [RegId.named]

theorem named_and_named_eq_false_iff {rA rB : RegId} :
    (RegId.named rA && RegId.named rB) = false ↔ rA = RNONE ∨ rB = RNONE := by
  rw [Bool.and_eq_false_iff, named_eq_false_iff, named_eq_false_iff]

/-- Two register checks, one after the other: the first field that is 15 stops the step. -/
theorem withReg_withReg_RNONE {rA rB : RegId} (h : rA = RNONE ∨ rB = RNONE) (s : State)
    (k : Word → Word → Result) :
    withReg rA s (fun a => withReg rB s (k a)) = .next (s.stopped .invalidInstruction) := by
  rcases hA : s.readReg rA with _ | a
  · obtain rfl := (readReg_eq_none_iff s rA).mp hA
    rfl
  · obtain rfl := h.resolve_left (named_of_readReg hA)
    rw [withReg_some hA]
    rfl

theorem exec_of_not_wf {i : Instr} (hi : i.wf = false) (s : State) :
    exec i s = .next (s.stopped .invalidInstruction) := by
  cases i with
  | halt | nop | ret | jmp | jle | jl | je | jne | jge | jg | call => cases hi
  | rrmovq rA rB | cmovle rA rB | cmovl rA rB | cmove rA rB | cmovne rA rB | cmovge rA rB
  | cmovg rA rB | addq rA rB | subq rA rB | andq rA rB | xorq rA rB =>
    exact withReg_withReg_RNONE (named_and_named_eq_false_iff.mp hi) s _
  | irmovq r | rmmovq r | mrmovq r | pushq r | popq r =>
    obtain rfl := named_eq_false_iff.mp hi
    rfl

/-! ### The obligations about bytes and register fields -/

/-- Settles O6: the decoder answers exactly on the encodings, and of the operand bytes only the register
byte of an instruction with an absent slot depends on what stands in it. -/
theorem decodeEncodeInverse : Obligations.DecodeEncodeInverse :=
  ⟨fun _ => decode_eq_ok_iff.mpr ⟨RNONE, [], (List.append_nil _).symm⟩,
    fun _ _ => decode_eq_ok_iff,
    fun _ x hi => encodeWith_of_no_absentSlot hi x,
    fun _ _ _ hi h => encodeWith_slot_inj hi h⟩

/-- Settles O7: the bytes that decode begin with an encoding, whose length the class nibble gives; a
shorter front that decoded would hold an encoding of the same class. -/
theorem classNibbleAloneGivesLength : Obligations.ClassNibbleAloneGivesLength :=
  ⟨by decide, fun _ _ _ h => ⟨decode_take_classLength h, fun _ hn => decode_take_of_lt hn⟩⟩

/-- Settles O14: each instruction's rule begins with the checks of the fields that R60 names. -/
theorem missingRegisterStopsWithIns : Obligations.MissingRegisterStopsWithIns :=
  fun _ s hi => exec_of_not_wf hi s

/-- Settles O5, each word by running the decoder on it. -/
theorem specWordsDecode : Obligations.SpecWordsDecode :=
  ⟨rfl, rfl, rfl, rfl, rfl, rfl, rfl, rfl, rfl, rfl, rfl, rfl⟩

end Sys2Proof.Proofs

/-! The obligations of spec/30_encoding.md about the assembler, settled: what its two passes make of
instructions, of a symbol with its label, and of a label or a symbol that is no good. -/

namespace Sys2Proof.Proofs

open Sys2Proof.Machine Sys2Proof.Claims

/-! ### The symbol table -/

theorem addressOf_eq_none_iff {n : SymbolName} {table : SymbolTable} :
    addressOf n table = none ↔ n ∉ table.map Prod.fst := by
  induction table with
  | nil => simp [addressOf]
  | cons e es ih =>
    rw [addressOf]
    split
    · next he => simp [he]
    · next he => simp [ih, Ne.symm he]

theorem bindLabel_some_eq_ok_iff {cursor : Nat} {table table' : SymbolTable} {n : SymbolName} :
    bindLabel cursor table (some n) = .ok table' ↔
      addressOf n table = none ∧ table' = table ++ [(n, cursor)] := by
  rw [bindLabel]
  split <;> simp [*, eq_comm]

theorem bindLabel_names {cursor : Nat} {table table' : SymbolTable} {label : Option SymbolName}
    (h : bindLabel cursor table label = .ok table') :
    table'.map Prod.fst = table.map Prod.fst ++ label.toList := by
  cases label with
  | none => cases h; simp
  | some n => obtain ⟨-, rfl⟩ := bindLabel_some_eq_ok_iff.mp h; simp

theorem bindLabel_nodup {cursor : Nat} {table table' : SymbolTable} {label : Option SymbolName}
    (h : bindLabel cursor table label = .ok table') (ht : (table.map Prod.fst).Nodup) :
    (table'.map Prod.fst).Nodup := by
  cases label with
  | none => cases h; exact ht
  | some n =>
    obtain ⟨hn, rfl⟩ := bindLabel_some_eq_ok_iff.mp h
    rw [List.map_append]
    exact ht.append (List.nodup_singleton n) (by simpa using addressOf_eq_none_iff.mp hn)

/-! ### The first pass -/

/-- The first pass over a line and the lines after it. -/
theorem layout_cons_eq_ok_iff {cursor : Nat} {table final : SymbolTable} {ln : SourceLine}
    {lns : List SourceLine} {records : List LineRecord} :
    layout cursor table (ln :: lns) = .ok (records, final) ↔
      ∃ table' cursor' r rs, bindLabel cursor table ln.label = .ok table' ∧
        placeItem cursor ln.item = .ok (cursor', r) ∧
        layout cursor' table' lns = .ok (rs, final) ∧ records = r.toList ++ rs := by
  rw [layout]
  rcases bindLabel cursor table ln.label with e | table' <;> simp only
  · simp
  rcases placeItem cursor ln.item with e | ⟨cursor', r⟩ <;> simp only
  · simp
  rcases hl : layout cursor' table' lns with e | ⟨rs, final'⟩ <;> simp only
  · simp [hl]
  · simp [hl, eq_comm, and_comm]

/-- The first pass binds the labels of the lines, in their order, and nothing else. -/
theorem layout_names {lns : List SourceLine} {cursor : Nat} {table final : SymbolTable}
    {records : List LineRecord} (h : layout cursor table lns = .ok (records, final)) :
    final.map Prod.fst = table.map Prod.fst ++ lns.filterMap SourceLine.label := by
  induction lns generalizing cursor table records with
  | nil => cases h; simp
  | cons ln lns ih =>
    obtain ⟨table', cursor', r, rs, hb, -, hl, -⟩ := layout_cons_eq_ok_iff.mp h
    rw [ih hl, bindLabel_names hb, List.append_assoc, List.filterMap_cons]
    cases ln.label <;> rfl

/-- The first pass binds no name twice (R64). -/
theorem layout_nodup {lns : List SourceLine} {cursor : Nat} {table final : SymbolTable}
    {records : List LineRecord} (h : layout cursor table lns = .ok (records, final))
    (ht : (table.map Prod.fst).Nodup) : (final.map Prod.fst).Nodup := by
  induction lns generalizing cursor table records with
  | nil => cases h; exact ht
  | cons ln lns ih =>
    obtain ⟨table', cursor', r, rs, hb, -, hl, -⟩ := layout_cons_eq_ok_iff.mp h
    exact ih hl (bindLabel_nodup hb ht)

/-- An item that uses a symbol emits a record with a field to patch with it (R68). -/
theorem placeItem_of_uses {n : SymbolName} {ln : SourceLine} (hu : Uses n ln) {cursor cursor' : Nat}
    {r : Option LineRecord} (h : placeItem cursor ln.item = .ok (cursor', r)) :
    ∃ rec f, r = some rec ∧ rec.reloc = some f ∧ f.symbol = n := by
  rcases hu with ⟨i, hi⟩ | ⟨w, hw⟩
  · rw [hi, placeItem] at h
    split at h <;> cases h
    exact ⟨_, _, rfl, rfl, rfl⟩
  · rw [hw] at h
    cases h
    exact ⟨_, _, rfl, rfl, rfl⟩

theorem layout_of_uses {n : SymbolName} {ln : SourceLine} (hu : Uses n ln) {lns : List SourceLine}
    (hln : ln ∈ lns) {cursor : Nat} {table final : SymbolTable} {records : List LineRecord}
    (h : layout cursor table lns = .ok (records, final)) :
    ∃ rec ∈ records, ∃ f, rec.reloc = some f ∧ f.symbol = n := by
  induction lns generalizing cursor table records with
  | nil => cases hln
  | cons l lns ih =>
    obtain ⟨table', cursor', r, rs, -, hp, hl, rfl⟩ := layout_cons_eq_ok_iff.mp h
    rcases List.mem_cons.mp hln with rfl | hln
    · obtain ⟨rec, f, rfl, hf⟩ := placeItem_of_uses hu hp
      exact ⟨rec, by simp, f, hf⟩
    · obtain ⟨rec, hrec, hf⟩ := ih hln hl
      exact ⟨rec, List.mem_append_right _ hrec, hf⟩

/-! ### The second pass -/

theorem addressOf_ne_none_of_patch {table : SymbolTable} {r : LineRecord} {f : Relocation}
    {bytes : List Byte} (hf : r.reloc = some f) (h : patch table r = .ok bytes) :
    addressOf f.symbol table ≠ none := by
  intro hnone
  simp [patch, hf, hnone] at h

theorem placeAll_cons_eq_ok_iff {table : SymbolTable} {image out : List Byte} {r : LineRecord}
    {rs : List LineRecord} :
    placeAll table image (r :: rs) = .ok out ↔
      ∃ bytes, patch table r = .ok bytes ∧
        placeAll table (overlay image r.addr bytes) rs = .ok out := by
  rw [placeAll]
  rcases patch table r with e | bytes <;> simp

theorem patch_ok_of_placeAll {table : SymbolTable} {rs : List LineRecord} {image out : List Byte}
    (h : placeAll table image rs = .ok out) {r : LineRecord} (hr : r ∈ rs) :
    ∃ bytes, patch table r = .ok bytes := by
  induction rs generalizing image with
  | nil => cases hr
  | cons r' rs ih =>
    obtain ⟨bytes, hp, hrest⟩ := placeAll_cons_eq_ok_iff.mp h
    rcases List.mem_cons.mp hr with rfl | hr
    · exact ⟨bytes, hp⟩
    · exact ih hrest hr

theorem assemble_eq_ok_iff {lines : List SourceLine} {image : List Byte} :
    assemble lines = .ok image ↔
      ∃ records table, layout 0 [] lines = .ok (records, table) ∧
        placeAll table [] records = .ok image := by
  rw [assemble]
  rcases layout 0 [] lines with e | ⟨records, table⟩ <;> simp

/-! ### What an image says about its source (R64, R68) -/

theorem labels_nodup_of_assemble {lines : List SourceLine} {image : List Byte}
    (h : assemble lines = .ok image) : (lines.filterMap SourceLine.label).Nodup := by
  obtain ⟨records, table, hl, -⟩ := assemble_eq_ok_iff.mp h
  have hnodup := layout_nodup hl List.nodup_nil
  rwa [layout_names hl] at hnodup

theorem label_of_uses_of_assemble {lines : List SourceLine} {image : List Byte}
    (h : assemble lines = .ok image) {n : SymbolName} {ln : SourceLine} (hln : ln ∈ lines)
    (hu : Uses n ln) : ∃ l ∈ lines, l.label = some n := by
  obtain ⟨records, table, hl, hp⟩ := assemble_eq_ok_iff.mp h
  obtain ⟨rec, hrec, f, hf, rfl⟩ := layout_of_uses hu hln hl
  obtain ⟨bytes, hbytes⟩ := patch_ok_of_placeAll hp hrec
  have hbound := addressOf_ne_none_of_patch hf hbytes
  rw [Ne, addressOf_eq_none_iff, not_not, layout_names hl] at hbound
  exact List.mem_filterMap.mp hbound

theorem exists_error_of_not_ok {ε α : Type} {x : Except ε α} (h : ∀ a, x ≠ .ok a) :
    ∃ e, x = .error e := by
  cases x with
  | error e => exact ⟨e, rfl⟩
  | ok a => exact absurd rfl (h a)

/-! ### Instructions, labels and symbols in the first pass -/

/-- The record of an instruction at an address. -/
def instrRecord (cursor : Nat) (i : Instr) : LineRecord :=
  { addr := cursor, bytes := encode i, reloc := none }

/-- The records of instructions one after another. -/
def blockRecords : Nat → List Instr → List LineRecord
  | _, [] => []
  | cursor, i :: is => instrRecord cursor i :: blockRecords (cursor + (encode i).length) is

/-- The record of an instruction whose constant, after `offset` bytes, is a symbol's address. -/
def symbolRecord (cursor : Nat) (i : Instr) (offset : Nat) (n : SymbolName) : LineRecord :=
  { addr := cursor, bytes := encode i,
    reloc := some { offset := offset, width := 8, symbol := n } }

section FirstPass

variable {cursor : Nat} {table final : SymbolTable} {lns : List SourceLine} {rs : List LineRecord}
  {n : SymbolName}

theorem layout_block_append {is : List Instr}
    (h : layout (cursor + (is.flatMap encode).length) table lns = .ok (rs, final)) :
    layout cursor table (block is ++ lns) = .ok (blockRecords cursor is ++ rs, final) := by
  induction is generalizing cursor with
  | nil => exact h
  | cons i is ih =>
    rw [List.flatMap_cons, List.length_append, ← Nat.add_assoc] at h
    exact layout_cons_eq_ok_iff.mpr ⟨_, _, _, _, rfl, rfl, ih h, rfl⟩

theorem layout_label_cons (hn : addressOf n table = none)
    (h : layout cursor (table ++ [(n, cursor)]) lns = .ok (rs, final)) :
    layout cursor table ({ label := some n, item := none } :: lns) = .ok (rs, final) :=
  layout_cons_eq_ok_iff.mpr ⟨_, _, _, _, bindLabel_some_eq_ok_iff.mpr ⟨hn, rfl⟩, rfl, h, rfl⟩

theorem layout_symbol_cons {i : Instr} {offset : Nat} (hi : relocationOffset i = some offset)
    (h : layout (cursor + (encode i).length) table lns = .ok (rs, final)) :
    layout cursor table ({ label := none, item := some (.instr i (some n)) } :: lns) =
      .ok (symbolRecord cursor i offset n :: rs, final) :=
  layout_cons_eq_ok_iff.mpr ⟨_, _, _, _, rfl, by rw [placeItem, hi], h, rfl⟩

end FirstPass

/-! ### Their records in the second pass, at the end of the image -/

section SecondPass

variable {table : SymbolTable} {image out : List Byte} {rs : List LineRecord} {cursor : Nat}

theorem overlay_end (image bytes : List Byte) :
    overlay image image.length bytes = image ++ bytes := by
  simp [overlay]

theorem placeAll_cons_end {r : LineRecord} {bytes : List Byte} (hr : patch table r = .ok bytes)
    (haddr : r.addr = image.length) (h : placeAll table (image ++ bytes) rs = .ok out) :
    placeAll table image (r :: rs) = .ok out :=
  placeAll_cons_eq_ok_iff.mpr ⟨bytes, hr, by rwa [haddr, overlay_end]⟩

theorem placeAll_block_end {is : List Instr} (hc : cursor = image.length)
    (h : placeAll table (image ++ is.flatMap encode) rs = .ok out) :
    placeAll table image (blockRecords cursor is ++ rs) = .ok out := by
  induction is generalizing cursor image with
  | nil => rwa [List.flatMap_nil, List.append_nil] at h
  | cons i is ih =>
    rw [List.flatMap_cons, ← List.append_assoc] at h
    exact placeAll_cons_end (bytes := encode i) rfl hc (ih (by simp [hc]) h)

end SecondPass

/-! ### A symbol in the constant of an instruction (R65, R68) -/

theorem byteOf_ofNat {k : Nat} (hk : k < 8) (a : Nat) :
    byteOf (BitVec.ofNat 64 a) k = BitVec.ofNat 8 (a / 2 ^ (8 * k)) := by
  apply BitVec.eq_of_getLsbD_eq
  intro j hj
  have hbit : 8 * k + j < 64 := by omega
  rw [byteOf_getLsbD, BitVec.getLsbD_ofNat, BitVec.getLsbD_ofNat, Nat.testBit_div_two_pow,
    decide_eq_true hbit, Bool.true_and, Nat.add_comm j]

/-- What a patch writes is the little-endian word of the address. -/
theorem bytesOfNat_eight (a : Nat) : bytesOfNat 8 a = bytesOf (BitVec.ofNat 64 a) := by
  simp [bytesOfNat, bytesOf, byteOf_ofNat, Nat.div_div_eq_div_mul]

/-- A form a symbol may stand in is spelt by fixed bytes and the constant, which the patched field
covers. -/
theorem encode_symbolForm {rB : RegId} {f : Word → Instr} (hf : f ∈ symbolForms rB) :
    ∃ front, ∀ v, encode (f v) = front ++ bytesOf v ∧ relocationOffset (f v) = some front.length := by
  simp only [symbolForms, List.mem_cons, List.not_mem_nil, or_false] at hf
  rcases hf with rfl | rfl | rfl | rfl | rfl | rfl | rfl | rfl | rfl
  · exact ⟨[0x30#8, regByte RNONE rB], fun _ => ⟨rfl, rfl⟩⟩
  all_goals exact ⟨[_], fun _ => ⟨rfl, rfl⟩⟩

theorem patch_symbolRecord {table : SymbolTable} {cursor a : Nat} {i : Instr} {n : SymbolName}
    {front : List Byte} {v : Word} (hi : encode i = front ++ bytesOf v)
    (hn : addressOf n table = some a) :
    patch table (symbolRecord cursor i front.length n) =
      .ok (front ++ bytesOf (BitVec.ofNat 64 a)) := by
  simp [patch, symbolRecord, hi, hn, bytesOfNat_eight]

/-! ### The obligations about the assembler -/

/-- Settles O48: the records of a block follow one another from address 0, so each is put at the end of
the image. -/
theorem instructionsAssembleToTheirEncodings :
    Obligations.InstructionsAssembleToTheirEncodings := by
  intro is
  have hlayout := layout_block_append (cursor := 0) (table := []) (lns := []) (is := is) rfl
  rw [List.append_nil] at hlayout
  exact assemble_eq_ok_iff.mpr ⟨_, _, hlayout, placeAll_block_end rfl rfl⟩

/-- Settles O49: the first pass binds the label to the length of what stands before it, and the second
pass reads it in the finished table, so the two orders differ only in where the address comes from. -/
theorem symbolStandsForLabelAddress : Obligations.SymbolStandsForLabelAddress := by
  intro rB f hf n before between
  obtain ⟨front, hfront⟩ := encode_symbolForm hf
  obtain ⟨henc, hreloc⟩ := hfront 0
  have hlen : (encode (f 0)).length = front.length + 8 := by
    rw [henc, List.length_append, bytesOf_length]
  simp only [List.append_assoc, List.cons_append]
  constructor
  · refine assemble_eq_ok_iff.mpr ⟨_, _, layout_block_append <| layout_label_cons rfl <|
      layout_block_append <| layout_symbol_cons hreloc rfl, ?_⟩
    refine placeAll_block_end rfl <| placeAll_block_end (by simp) <|
      placeAll_cons_end (patch_symbolRecord henc (if_pos rfl)) (by simp [symbolRecord]) ?_
    simp [placeAll, (hfront _).1]
  · refine assemble_eq_ok_iff.mpr ⟨_, _, layout_block_append <| layout_symbol_cons hreloc <|
      layout_block_append <| layout_label_cons rfl rfl, ?_⟩
    refine placeAll_block_end rfl <| placeAll_cons_end (patch_symbolRecord henc (if_pos rfl))
      (by simp [symbolRecord]) <| placeAll_block_end (by rw [hlen]; simp) ?_
    simp [placeAll, (hfront _).1]

/-- Settles O50: an image has distinct labels, and a label for each symbol used. -/
theorem badSymbolsGiveNoImage : Obligations.BadSymbolsGiveNoImage := by
  refine ⟨fun xs ys zs n it it' => exists_error_of_not_ok fun image h => ?_,
    fun lines ln n hln hu hno => exists_error_of_not_ok fun image h => ?_⟩
  · have hnodup := labels_nodup_of_assemble h
    simp [List.nodup_append] at hnodup
  · obtain ⟨l, hl, hlabel⟩ := label_of_uses_of_assemble h hln hu
    exact hno l hl hlabel

end Sys2Proof.Proofs

/-! The obligations of spec/40_step_halt_nop.md, settled: a step runs what decodes at `pc`, and the two
one-byte instructions halt and nop, also where memory ends. -/

namespace Sys2Proof.Proofs

open Sys2Proof.Machine Sys2Proof.Claims

/-! ### The step on the bytes at `pc` -/

/-- The step's rule R80 with the fetch of R57 said through the bytes that stand at `pc`, whatever
follows them. -/
theorem step_of_decode {s : State} {bs : List Byte} {i : Instr} (hs : s.stat = .ok)
    (hbs : BytesStandAtPc bs s) (hi : decode bs = .ok i) : step s = exec i s.tick := by
  obtain ⟨x, rest, rfl⟩ := decode_eq_ok_iff.mp hi
  exact step_of_fetch hs (fetchDecode_of_bytesStandAtPc (bytesStandAtPc_of_append hbs))

theorem bytesStandAtPc_singleton {s : State} {b : Byte} (h : s.mem.read1 s.pc = some b) :
    BytesStandAtPc [b] s := by
  intro k hk
  obtain rfl : k = 0 := Nat.lt_one_iff.mp hk
  exact (congrArg s.mem.read1 (BitVec.add_zero s.pc)).trans h

/-- Check 1 of R57 fails where `pc` lies outside memory. -/
theorem fetchDecode_of_not_valid {s : State} (h : ¬ s.mem.Valid s.pc 1) :
    fetchDecode s = .error .opcodeFetch := by
  rw [fetchDecode, maxLength, Memory.bytesFrom, read1_eq_none_iff.mpr h]; rfl

theorem step_of_not_valid {s : State} (hs : s.stat = .ok) (h : ¬ s.mem.Valid s.pc 1) :
    step s = .next (s.tick.stopped .addressFault) :=
  step_of_error hs (fetchDecode_of_not_valid h)

/-! ### halt and nop -/

theorem exec_halt (s : State) : exec .halt s = .next (s.stopped .halt) := rfl

theorem exec_nop (s : State) : exec .nop s = .next (s.completed (s.pc + 1)) := rfl

theorem step_of_halt_byte {s : State} (hs : s.stat = .ok) (h : s.mem.read1 s.pc = some 0x00) :
    step s = .next (s.tick.stopped .halt) := by
  rw [step_of_decode hs (bytesStandAtPc_singleton h) rfl, exec_halt]

theorem step_of_nop_byte {s : State} (hs : s.stat = .ok) (h : s.mem.read1 s.pc = some 0x10) :
    step s = .next (s.tick.completed (s.pc + 1)) := by
  rw [step_of_decode hs (bytesStandAtPc_singleton h) rfl, exec_nop, tick_pc]

theorem tick_completed_of_ok {s : State} (hs : s.stat = .ok) (pc : Word) :
    s.tick.completed pc = { s with pc := pc, steps := s.steps + 1 } := by
  rw [State.completed, ← hs]; rfl

/-- A nop in the last byte of memory leaves `pc = MEM_SIZE`, where the next opcode fetch fails (R83). -/
theorem nop_in_last_byte {s : State} (hm : s.mem.wf) (hs : s.stat = .ok)
    (h : s.mem.read1 s.pc = some 0x10) (hlast : s.pc.toNat + 1 = s.mem.size) :
    ∃ t u, step s = .next t ∧ t.stat = .ok ∧ t.pc.toNat = s.mem.size ∧
      step t = .next u ∧ u.stat = .adr := by
  have hpc : (s.pc + 1).toNat = s.mem.size :=
    (toNat_add_of_valid hm (Nat.le_of_eq hlast) (Nat.le_refl 1)).trans hlast
  have hout : ¬ s.mem.Valid (s.pc + 1) 1 := by rw [Memory.Valid, hpc]; omega
  exact ⟨_, _, step_of_nop_byte hs h, rfl, hpc, step_of_not_valid rfl hout, rfl⟩

/-! ### The obligations of the step, halt and nop -/

/-- Settles O4: bytes that decode begin with an encoding, which the fetch at `pc` finds. -/
theorem stepRunsDecodedInstruction : Obligations.StepRunsDecodedInstruction :=
  fun _ _ _ hs hbs hi => step_of_decode hs hbs hi

/-- Settles O15: halt's rule is the raise alone, and the byte 0x00 decodes to it. -/
theorem haltStopsWithHlt : Obligations.HaltStopsWithHlt :=
  ⟨exec_halt, fun _ hs h => step_of_halt_byte hs h⟩

/-- Settles O16: nop completes wherever its byte was fetched, and the opcode fetch fails exactly outside
memory, so after a nop in the last byte the next step stops. -/
theorem nopOnlyAdvancesPc : Obligations.NopOnlyAdvancesPc := by
  refine ⟨rfl, exec_nop, fun s hs h => ?_, fun _ hs h => step_of_not_valid hs h,
    fun _ hm hs h hlast => nop_in_last_byte hm hs h hlast⟩
  rw [step_of_nop_byte hs h, tick_completed_of_ok hs]

end Sys2Proof.Proofs

/-! The obligations of spec/41_register_move.md, settled: the seven conditional moves, and what the
predicates of R90 say after a compare. -/

namespace Sys2Proof.Proofs

open Sys2Proof.Machine Sys2Proof.Claims

/-! ### The moves -/

/-- Each row of the moves is the shared rule R98 under one of the predicates of R90. -/
theorem exec_of_mem_moveRows {rA rB : RegId} {c : CondCodes} {row : Instr × Bool}
    (h : row ∈ moveRows rA rB c) : ∃ p, exec row.1 = moveIf p rA rB ∧ condHolds p c = row.2 := by
  simp only [moveRows, List.mem_cons, List.not_mem_nil, or_false] at h
  rcases h with rfl | rfl | rfl | rfl | rfl | rfl | rfl
  exacts [⟨.always, rfl, rfl⟩, ⟨.le, rfl, rfl⟩, ⟨.l, rfl, rfl⟩, ⟨.e, rfl, rfl⟩, ⟨.ne, rfl, rfl⟩,
    ⟨.ge, rfl, rfl⟩, ⟨.g, rfl, rfl⟩]

theorem moveIf_of_readReg {rA rB : RegId} {s : State} {a b : Word} (hA : s.readReg rA = some a)
    (hB : s.readReg rB = some b) (p : Pred) :
    moveIf p rA rB s =
      .next ((if condHolds p s.cc then s.writeReg rB a else s).completed (s.pc + 2)) := by
  rw [moveIf, withReg_some hA, withReg_some hB, complete_eq]

/-- The state that a move leaves, with its frame (R98). -/
theorem moveIf_completes {rA rB : RegId} {s : State} {a b : Word} (hA : s.readReg rA = some a)
    (hB : s.readReg rB = some b) (p : Pred) :
    ∃ t, moveIf p rA rB s = .next t ∧ t.readReg rB = some (if condHolds p s.cc then a else b) ∧
      RegsKeptExcept [rB] s t ∧ t.pc = s.pc + 2 ∧ t.cc = s.cc ∧ MemKept s t ∧ t.stat = .ok ∧
      t.steps = s.steps := by
  refine ⟨_, moveIf_of_readReg hA hB p, ?_⟩
  split
  · exact ⟨readReg_writeReg_self s a (named_of_readReg hB), regsKept_writeReg s rB a _, rfl,
      writeReg_cc .., by simp [MemKept], rfl, writeReg_steps ..⟩
  · exact ⟨hB, fun _ _ => rfl, rfl, rfl, ⟨rfl, fun _ => rfl⟩, rfl, rfl⟩

/-! ### The codes of a subtraction as an order -/

section Compare

variable (a b : Word)

theorem aluFlags_sub_ZF : (aluFlags .sub a b).ZF = decide (b = a) := by
  simp [aluFlags, aluResult, Bool.beq_eq_decide_eq, BitVec.sub_eq_iff_eq_add]

/-- The wrapped difference is the exact one, or, outside the signed range, off by 2^64 and of the other
sign. -/
theorem toInt_sub_cases :
    (b - a).toInt = b.toInt - a.toInt ∨
    ((b - a).toInt = b.toInt - a.toInt - 2 ^ 64 ∧ (b - a).toInt < 0 ∧
      2 ^ 63 ≤ b.toInt - a.toInt) ∨
    ((b - a).toInt = b.toInt - a.toInt + 2 ^ 64 ∧ 0 ≤ (b - a).toInt ∧
      b.toInt - a.toInt < -2 ^ 63) := by
  have := a.toInt_lt
  have := a.le_toInt
  have := b.toInt_lt
  have := b.le_toInt
  rw [BitVec.toInt_sub, Int.bmod_def]
  split <;> omega

/-- The operands' signs differ and the result's is not the minuend's exactly where wrapping changes the
difference (R112). -/
theorem aluOverflow_sub_iff :
    aluOverflow .sub a b = true ↔ (b - a).toInt ≠ b.toInt - a.toInt := by
  have hsub := toInt_sub_cases a b
  have := a.toInt_lt
  have := a.le_toInt
  have := b.toInt_lt
  have := b.le_toInt
  simp only [aluOverflow, BitVec.msb_eq_toInt, Bool.and_eq_true, bne_iff_ne, ne_eq,
    decide_eq_decide]
  omega

/-- The exact difference is negative exactly where `SF` differs from `OF`: where the wrapped one keeps
its sign and does not overflow, or overflows and has the other sign (R90). -/
theorem aluFlags_sub_SF_xor_OF :
    ((aluFlags .sub a b).SF ^^ (aluFlags .sub a b).OF) = decide (b.toInt < a.toInt) := by
  have hSF : (aluFlags .sub a b).SF = true ↔ (b - a).toInt < 0 := by
    rw [aluFlags, aluResult, BitVec.msb_eq_toInt, decide_eq_true_iff]
  have hOF : (aluFlags .sub a b).OF = true ↔ (b - a).toInt ≠ b.toInt - a.toInt :=
    aluOverflow_sub_iff a b
  rw [Bool.eq_iff_iff, Bool.xor_iff_ne, ne_eq, Bool.eq_iff_iff, hSF, hOF, decide_eq_true_iff]
  rcases toInt_sub_cases a b with h | h | h <;> omega

end Compare

/-! ### A subtraction and the jump after it -/

/-- Each row of the signed order is the shared jump rule R120 under the predicate that the codes of the
subtraction make the comparison of the row. -/
theorem exec_of_mem_signedJumpRows {dest a b : Word} {row : Instr × Bool}
    (h : row ∈ signedJumpRows dest a b) :
    ∃ p, exec row.1 = jumpIf p dest ∧ condHolds p (aluFlags .sub a b) = row.2 := by
  have hlt := aluFlags_sub_SF_xor_OF a b
  have heq := aluFlags_sub_ZF a b
  have hle : (decide (b.toInt < a.toInt) || decide (b = a)) = decide (b.toInt ≤ a.toInt) := by
    rw [← Bool.decide_or, decide_eq_decide, ← BitVec.toInt_inj]; exact le_iff_lt_or_eq.symm
  simp only [signedJumpRows, List.mem_cons, List.not_mem_nil, or_false] at h
  rcases h with rfl | rfl | rfl | rfl | rfl | rfl
  · exact ⟨.le, rfl, by rw [condHolds, hlt, heq, hle]⟩
  · exact ⟨.l, rfl, hlt⟩
  · exact ⟨.e, rfl, heq⟩
  · exact ⟨.ne, rfl, by simp [condHolds, heq]⟩
  · exact ⟨.ge, rfl, by simp [condHolds, hlt, ← decide_not]⟩
  · exact ⟨.g, rfl, by rw [condHolds, hlt, heq, ← Bool.not_or, hle]; simp [← decide_not]⟩

theorem aluStep_of_readReg {rA rB : RegId} {s : State} {a b : Word} (hA : s.readReg rA = some a)
    (hB : s.readReg rB = some b) (op : AluOp) :
    aluStep op rA rB s =
      .next (((s.setCodes (aluFlags op a b)).writeReg rB (aluResult op a b)).completed
        (s.pc + 2)) := by
  rw [aluStep, withReg_some hA, withReg_some hB, complete_eq]

/-- From `OK` a jump changes `pc` alone (R120). -/
theorem jumpIf_of_ok {s : State} (hs : s.stat = .ok) (p : Pred) (dest : Word) :
    jumpIf p dest s = .next { s with pc := if condHolds p s.cc then dest else s.pc + 9 } := by
  rw [jumpIf, complete_eq, State.completed, ← hs]

/-! ### The obligations of the register moves -/

/-- Settles O17: each move is the shared rule under its predicate, whose two cases are a register write
and none. -/
theorem movesCopyWherePredicateHolds : Obligations.MovesCopyWherePredicateHolds := by
  intro s rA rB a b hA hB row hrow
  obtain ⟨p, hexec, hcopies⟩ := exec_of_mem_moveRows hrow
  rw [hexec, ← hcopies]
  exact moveIf_completes hA hB p

/-- Settles O27: the jump finds the codes of the subtraction, which say how the operands compare. -/
theorem compareThenJumpFollowsSignedOrder : Obligations.CompareThenJumpFollowsSignedOrder := by
  intro s rA rB a b dest hA hB
  refine ⟨_, aluStep_of_readReg hA hB .sub, fun row hrow => ?_⟩
  obtain ⟨p, hexec, htaken⟩ := exec_of_mem_signedJumpRows hrow
  rw [hexec, jumpIf_of_ok rfl, completed_cc, writeReg_cc, setCodes_cc, htaken]

end Sys2Proof.Proofs

/-! The obligation of spec/42_load_immediate.md, settled: the load of a constant. -/

namespace Sys2Proof.Proofs

open Sys2Proof.Machine Sys2Proof.Claims

/-- The one outcome of R100 where the destination names a register: no memory access is left that could
fault, since the fetch has read the constant. -/
theorem exec_irmovq_of_named {rB : RegId} (hB : rB ≠ RNONE) (v : Word) (s : State) :
    exec (.irmovq rB v) s = .next ((s.writeReg rB v).completed (s.pc + 10)) := by
  obtain ⟨old, hold⟩ := exists_readReg s hB
  rw [exec, execIrmovq, withReg_some hold, complete_eq]

/-- Settles O18: the instruction completes after one register write, whose laws give the value loaded
and what is kept. -/
theorem irmovqLoadsConstant : Obligations.IrmovqLoadsConstant := by
  intro s rB v hB
  exact ⟨_, exec_irmovq_of_named hB v s, readReg_writeReg_self s v hB, regsKept_writeReg s rB v _, rfl,
    writeReg_cc .., by simp [MemKept], rfl, writeReg_steps ..⟩

end Sys2Proof.Proofs

/-! The obligations of spec/43_store_load.md, settled: the effective address, the store and the load. -/

namespace Sys2Proof.Proofs

open Sys2Proof.Machine Sys2Proof.Claims

/-! ### The effective address -/

theorem effectiveAddress_RNONE (d : Word) (s : State) : effectiveAddress RNONE d s = d := by
  rw [effectiveAddress, baseValue_RNONE]
  exact BitVec.zero_add d

theorem effectiveAddress_of_readReg {rB : RegId} {s : State} {b : Word} (h : s.readReg rB = some b)
    (d : Word) : effectiveAddress rB d s = b + d := by
  rw [effectiveAddress, baseValue_some h]

/-- The wrapped sum is the exact one with the displacement read as signed, modulo 2^64 (R36). -/
theorem add_eq_ofInt_toNat_add_toInt (b d : Word) :
    b + d = BitVec.ofInt 64 ((b.toNat : Int) + d.toInt) := by
  rw [BitVec.ofInt_add, BitVec.ofInt_natCast, BitVec.ofNat_toNat, BitVec.setWidth_eq,
    BitVec.ofInt_toInt]

/-! ### The two outcomes of a store and of a load where `rA` names a register -/

section Access

variable {s : State} {rA rB : RegId} {d : Word}

/-- A store outside memory stops before it writes (R34). -/
theorem exec_rmmovq_of_not_valid {a : Word} (ha : s.readReg rA = some a)
    (hv : ¬ s.mem.Valid (effectiveAddress rB d s) 8) :
    exec (.rmmovq rA rB d) s = .next (s.stopped .addressFault) := by
  rw [exec, execRmmovq, withReg_some ha, withWrite8_invalid hv]

/-- The word loaded is the one that stood at the address formed from the old registers. -/
theorem exec_mrmovq_of_read8 {v : Word} (hA : rA ≠ RNONE)
    (hv : s.mem.read8 (effectiveAddress rB d s) = some v) :
    exec (.mrmovq rA rB d) s = .next ((s.writeReg rA v).completed (s.pc + 10)) := by
  obtain ⟨old, hold⟩ := exists_readReg s hA
  rw [exec, execMrmovq, withReg_some hold, withRead8_some hv, complete_eq]

theorem exec_mrmovq_of_not_valid (hA : rA ≠ RNONE)
    (hv : ¬ s.mem.Valid (effectiveAddress rB d s) 8) :
    exec (.mrmovq rA rB d) s = .next (s.stopped .addressFault) := by
  obtain ⟨old, hold⟩ := exists_readReg s hA
  rw [exec, execMrmovq, withReg_some hold, withRead8_invalid hv]

end Access

theorem exists_read8 {m : Memory} {a : Word} (h : m.Valid a 8) : ∃ v, m.read8 a = some v :=
  Option.ne_none_iff_exists'.mp fun hnone => read8_eq_none_iff.mp hnone h

/-! ### The obligations of the store and the load -/

/-- Settles O19, from the two forms of the base and the sum modulo 2^64. -/
theorem effectiveAddressIsBasePlusDisplacement : Obligations.EffectiveAddressIsBasePlusDisplacement := by
  intro s rB d
  refine ⟨fun hB => hB ▸ effectiveAddress_RNONE d s, fun b hb => ?_⟩
  rw [effectiveAddress_of_readReg hb]
  exact ⟨rfl, add_eq_ofInt_toNat_add_toInt b d, BitVec.toNat_add b d⟩

/-- Settles O20: inside memory the store is one eight-byte write, whose laws give the bytes and what is
kept; outside it is a stop. -/
theorem rmmovqStoresAtEffectiveAddress : Obligations.RmmovqStoresAtEffectiveAddress := by
  intro s rA rB d a hwf ha
  refine ⟨fun hv => ?_, exec_rmmovq_of_not_valid ha⟩
  obtain ⟨m, hm⟩ := exists_write8 hv a
  exact ⟨_, execRmmovq_of_write8 ha hm, fun _ hj => byteAt_write8_inside hwf hm hj,
    ⟨write8_size hm, fun _ hk => byteAt_write8_outside hm hk⟩, fun _ _ => rfl, rfl, rfl, rfl, rfl⟩

/-- Settles O21: inside memory the load is one register write of the word read there; outside it is a
stop. -/
theorem mrmovqLoadsFromEffectiveAddress : Obligations.MrmovqLoadsFromEffectiveAddress := by
  intro s rA rB d hA
  refine ⟨fun hv => ?_, exec_mrmovq_of_not_valid hA⟩
  obtain ⟨v, hread⟩ := exists_read8 hv
  exact ⟨_, v, exec_mrmovq_of_read8 hA hread, readReg_writeReg_self s v hA,
    (read8_eq_some_iff.mp hread).2, regsKept_writeReg s rA v _, by simp [MemKept], rfl,
    writeReg_cc .., rfl, writeReg_steps ..⟩

end Sys2Proof.Proofs

/-! The obligations of spec/44_alu.md, settled: the step keeps the invariant, and what the four ALU
instructions write. -/

namespace Sys2Proof.Proofs

open Sys2Proof.Machine Sys2Proof.Claims

/-! ### The invariant over a step -/

/-- Memory changes by one store of a word or not at all (R32, R35). -/
theorem exec_mem_eq_or_write8 {i : Instr} {s t : State} (h : exec i s = .next t) :
    t.mem = s.mem ∨ ∃ a v, s.mem.write8 a v = some t.mem := by
  cases hi : stores i with
  | false => exact .inl (exec_mem h hi)
  | true =>
    cases i with
    | rmmovq rA rB d =>
      rcases execRmmovq_next h with ⟨a, m, -, hm, rfl⟩ | ⟨-, rfl⟩ | ⟨-, -, rfl⟩
      · exact .inr ⟨_, _, hm⟩
      all_goals exact .inl rfl
    | call dest =>
      rcases execCall_next h with ⟨m, hm, rfl⟩ | ⟨-, rfl⟩
      · exact .inr ⟨_, _, hm⟩
      · exact .inl rfl
    | pushq rA =>
      rcases execPushq_next h with ⟨a, m, -, hm, rfl⟩ | ⟨-, rfl⟩ | ⟨-, -, rfl⟩
      · exact .inr ⟨_, _, hm⟩
      all_goals exact .inl rfl
    | _ => cases hi

theorem exec_keeps_mem_wf {i : Instr} {s t : State} (hm : s.mem.wf) (h : exec i s = .next t) :
    t.mem.wf := by
  rcases exec_mem_eq_or_write8 h with hmem | ⟨a, v, hw⟩
  · exact hmem ▸ hm
  · exact wf_write8 hm hw

/-- The codes change to those of an ALU result or not at all (R19, R110). -/
theorem exec_cc_eq_or_aluFlags {i : Instr} {s t : State} (h : exec i s = .next t) :
    t.cc = s.cc ∨ ∃ op a b, t.cc = aluFlags op a b := by
  cases hi : isAlu i with
  | false => exact .inl (exec_cc h hi)
  | true =>
    obtain ⟨op, rA, rB, hexec⟩ := exec_eq_aluStep hi
    rcases aluStep_next (hexec ▸ h) with ⟨a, b, -, -, rfl⟩ | ⟨-, rfl⟩
    · exact .inr ⟨op, a, b, writeReg_cc ..⟩
    · exact .inl rfl

/-- A zero result has sign bit 0 (R115). -/
theorem aluFlags_not_ZF_and_SF (op : AluOp) (a b : Word) :
    ¬ ((aluFlags op a b).ZF = true ∧ (aluFlags op a b).SF = true) := by
  rintro ⟨hZF, hSF⟩
  have hzero : aluResult op a b = 0 := eq_of_beq hZF
  have hsign : (aluResult op a b).msb = true := hSF
  rw [hzero] at hsign
  exact absurd hsign (by decide)

theorem exec_keeps_invariant {i : Instr} {s t : State} (hs : Invariant s) (h : exec i s = .next t) :
    Invariant t := by
  obtain ⟨hm, hcodes⟩ := hs
  refine ⟨exec_keeps_mem_wf hm h, ?_⟩
  rcases exec_cc_eq_or_aluFlags h with hcc | ⟨op, a, b, hcc⟩
  · rwa [hcc]
  · rw [hcc]; exact aluFlags_not_ZF_and_SF op a b

/-! ### The four instructions as one -/

/-- The instruction of an operation (R111 to R114). -/
def aluInstr (op : AluOp) (rA rB : RegId) : Instr :=
  match op with
  | .add => .addq rA rB
  | .sub => .subq rA rB
  | .and => .andq rA rB
  | .xor => .xorq rA rB

theorem exec_aluInstr (op : AluOp) (rA rB : RegId) (s : State) :
    exec (aluInstr op rA rB) s = aluStep op rA rB s := by cases op <;> rfl

theorem aluInstr_eq_addq_iff {op : AluOp} {rA rB : RegId} :
    aluInstr op rA rB = .addq rA rB ↔ op = .add := by cases op <;> simp [aluInstr]

theorem eq_of_mem_aluRows {rA rB : RegId} {a b : Word} {row : Instr × Word × Bool}
    (h : row ∈ aluRows rA rB a b) :
    ∃ op, row = (aluInstr op rA rB, aluResult op a b, aluOverflow op a b) := by
  simp only [aluRows, List.mem_cons, List.not_mem_nil, or_false] at h
  rcases h with rfl | rfl | rfl | rfl
  · exact ⟨.add, by simp [aluInstr, aluResult, aluOverflow, Bool.beq_eq_decide_eq, bne]⟩
  · exact ⟨.sub, by simp [aluInstr, aluResult, aluOverflow, Bool.beq_eq_decide_eq, bne]⟩
  · exact ⟨.and, rfl⟩
  · exact ⟨.xor, rfl⟩

/-- `t` is `s` after an ALU operation on `a = x[rA]` and `b = x[rB]`, with its frame (R110 to R116). -/
structure AluCompletes (op : AluOp) (rB : RegId) (a b : Word) (s t : State) : Prop where
  result : t.readReg rB = some (aluResult op a b)
  codes : t.cc = aluFlags op a b
  regs : RegsKeptExcept [rB] s t
  pc : t.pc = s.pc + 2
  mem : MemKept s t
  stat : t.stat = .ok
  steps : t.steps = s.steps

theorem exec_aluInstr_completes {rA rB : RegId} {s : State} {a b : Word}
    (hA : s.readReg rA = some a) (hB : s.readReg rB = some b) (op : AluOp) :
    ∃ t, exec (aluInstr op rA rB) s = .next t ∧ AluCompletes op rB a b s t := by
  refine ⟨_, (exec_aluInstr op rA rB s).trans (aluStep_of_readReg hA hB op), ?_⟩
  exact {
    result := readReg_writeReg_self _ _ (named_of_readReg hB)
    codes := writeReg_cc ..
    regs := regsKept_writeReg (s.setCodes _) rB _ _
    pc := rfl
    mem := by simp [MemKept]
    stat := rfl
    steps := writeReg_steps .. }

/-! ### The codes as facts about the result -/

/-- The codes of R110 as the rules write them: a comparison with 0, bit 63, and the overflow rule. -/
theorem aluFlags_eq (op : AluOp) (a b : Word) :
    aluFlags op a b = { ZF := decide (aluResult op a b = 0),
                        SF := (aluResult op a b).getLsbD 63,
                        OF := aluOverflow op a b } := by
  rw [aluFlags, Bool.beq_eq_decide_eq, BitVec.msb_eq_getLsbD_last]

theorem aluFlags_ZF_iff {op : AluOp} {a b : Word} :
    (aluFlags op a b).ZF = true ↔ aluResult op a b = 0 := beq_iff_eq

/-- The overflow rule of the sum is the library's, which is defined by the exact value (R111). -/
theorem aluOverflow_add_eq (a b : Word) : aluOverflow .add a b = b.saddOverflow a := by
  rw [BitVec.saddOverflow_eq, aluOverflow]
  cases a.msb <;> cases b.msb <;> rfl

theorem aluOverflow_add_iff (a b : Word) : aluOverflow .add a b = true ↔
    b.toInt + a.toInt < -2 ^ 63 ∨ 2 ^ 63 - 1 < b.toInt + a.toInt := by
  rw [aluOverflow_add_eq, BitVec.saddOverflow, Bool.or_eq_true, decide_eq_true_iff,
    decide_eq_true_iff]
  omega

theorem aluOverflow_sub_iff_range (a b : Word) : aluOverflow .sub a b = true ↔
    b.toInt - a.toInt < -2 ^ 63 ∨ 2 ^ 63 - 1 < b.toInt - a.toInt := by
  have := (b - a).toInt_lt
  have := (b - a).le_toInt
  rw [aluOverflow_sub_iff]
  rcases toInt_sub_cases a b with h | h | h <;> omega

theorem aluResult_add_eq_ofInt (a b : Word) :
    aluResult .add a b = BitVec.ofInt 64 (b.toInt + a.toInt) := by
  rw [BitVec.ofInt_add, BitVec.ofInt_toInt, BitVec.ofInt_toInt, aluResult]

theorem aluResult_sub_eq_ofInt (a b : Word) :
    aluResult .sub a b = BitVec.ofInt 64 (b.toInt - a.toInt) := by
  rw [← BitVec.toInt_inj, aluResult, BitVec.toInt_sub, BitVec.toInt_ofInt]

/-- Two operands of one sign whose sum is 0 of the other: both are negative and at least 2^63 as natural
numbers, and their sum is 2^64 (R115). -/
theorem add_overflow_zero_iff (a b : Word) :
    aluOverflow .add a b = true ∧ aluResult .add a b = 0 ↔
      a = 0x8000000000000000 ∧ b = 0x8000000000000000 := by
  constructor
  · rintro ⟨hOF, hzero⟩
    have hsum : b + a = 0 := hzero
    obtain ⟨hsame, hdiffers⟩ : a.msb = b.msb ∧ (b + a).msb ≠ a.msb := by
      simpa [aluOverflow] using hOF
    have ha : a.msb = true := by simpa [hsum] using hdiffers
    have hale := BitVec.toNat_ge_of_msb_true ha
    have hble := BitVec.toNat_ge_of_msb_true (hsame ▸ ha)
    bv_omega
  · rintro ⟨rfl, rfl⟩; decide

theorem sub_overflow_not_zero {a b : Word} (h : aluOverflow .sub a b = true) :
    aluResult .sub a b ≠ 0 := by
  intro hzero
  obtain rfl : b = a := by simpa using BitVec.sub_eq_iff_eq_add.mp hzero
  simp [aluOverflow] at h

theorem aluFlags_OF_and_ZF_iff (op : AluOp) (a b : Word) :
    (aluFlags op a b).OF = true ∧ (aluFlags op a b).ZF = true ↔
      op = .add ∧ a = 0x8000000000000000 ∧ b = 0x8000000000000000 := by
  rw [aluFlags_ZF_iff]
  cases op with
  | add => exact (add_overflow_zero_iff a b).trans (and_iff_right rfl).symm
  | sub => exact iff_of_false (fun h => sub_overflow_not_zero h.1 h.2) (by simp)
  | and | xor => simp [aluFlags, aluOverflow]

/-! ### The obligations of the ALU -/

/-- Settles O3: a failed fetch changes neither memory nor codes, and every instruction keeps both parts
of the invariant. -/
theorem stepKeepsInv : Obligations.StepKeepsInv := by
  intro s t hs h
  obtain ⟨-, ⟨e, -, rfl⟩ | ⟨i, -, h⟩⟩ := step_next h
  · exact hs
  · exact exec_keeps_invariant (s := s.tick) hs h

/-- Settles O22: the codes are those of the result, which `rB` holds. -/
theorem aluWritesAllThreeCodes : Obligations.AluWritesAllThreeCodes := by
  intro s rA rB a b hA hB row hrow
  obtain ⟨op, rfl⟩ := eq_of_mem_aluRows hrow
  obtain ⟨t, hexec, ht⟩ := exec_aluInstr_completes hA hB op
  have hcc := ht.codes.trans (aluFlags_eq op a b)
  exact ⟨t, _, hexec, ht.result, congrArg CondCodes.ZF hcc, congrArg CondCodes.SF hcc,
    congrArg CondCodes.OF hcc⟩

/-- Settles O23: every row is the shared rule under its operation. -/
theorem aluResultReplacesSecondOperand : Obligations.AluResultReplacesSecondOperand := by
  intro s rA rB a b hA hB row hrow
  obtain ⟨op, rfl⟩ := eq_of_mem_aluRows hrow
  obtain ⟨t, hexec, ht⟩ := exec_aluInstr_completes hA hB op
  exact ⟨t, hexec, ht.result, ht.regs, ht.pc, ht.mem, ht.stat, ht.steps⟩

/-- Settles O24: the shared rule at the two bitwise operations; where `rA = rB` the operands are equal,
and the operation of a word with itself is that word or 0. -/
theorem bitwiseOperationsWriteResultAndCodes :
    Obligations.BitwiseOperationsWriteResultAndCodes := by
  intro s rA rB
  refine ⟨rfl, rfl, fun h => ?_, fun a b hA hB => ⟨?_, ?_⟩⟩
  · have hwf : (RegId.named rA && RegId.named rB) = false := named_and_named_eq_false_iff.mpr h
    exact ⟨exec_of_not_wf (i := .andq rA rB) hwf s, exec_of_not_wf (i := .xorq rA rB) hwf s⟩
  · obtain ⟨t, hexec, ht⟩ := exec_aluInstr_completes hA hB .and
    refine ⟨t, hexec, ht.result, ht.codes.trans (aluFlags_eq .and a b), ht.pc, ht.regs, ht.mem,
      ht.stat, ht.steps, fun hAB => ?_⟩
    obtain rfl : a = b := Option.some.inj ((hAB ▸ hA).symm.trans hB)
    rw [ht.result, hB, aluResult, BitVec.and_self]
  · obtain ⟨t, hexec, ht⟩ := exec_aluInstr_completes hA hB .xor
    refine ⟨t, hexec, ht.result, ht.codes.trans (aluFlags_eq .xor a b), ht.pc, ht.regs, ht.mem,
      ht.stat, ht.steps, fun hAB => ?_⟩
    obtain rfl : a = b := Option.some.inj ((hAB ▸ hA).symm.trans hB)
    have hzero : aluResult .xor a a = 0 := BitVec.xor_self
    exact ⟨hzero ▸ ht.result, by rw [ht.codes, aluFlags_eq, hzero]; rfl⟩

/-- Settles O25: the wrapped result is the exact value modulo 2^64, and the overflow rules say where that
lies outside the signed range. -/
theorem overflowCodeIsSignedOverflow : Obligations.OverflowCodeIsSignedOverflow := by
  intro s rA rB a b hA hB
  obtain ⟨t, hexec, ht⟩ := exec_aluInstr_completes hA hB .add
  obtain ⟨u, hexec', hu⟩ := exec_aluInstr_completes hA hB .sub
  refine ⟨⟨t, hexec, aluResult_add_eq_ofInt a b ▸ ht.result, ?_⟩,
    ⟨u, hexec', aluResult_sub_eq_ofInt a b ▸ hu.result, ?_⟩⟩
  · rw [ht.codes]; exact aluOverflow_add_iff a b
  · rw [hu.codes]; exact aluOverflow_sub_iff_range a b

/-- Settles O26, from the codes of each operation. -/
theorem zeroWithOverflowOnlyFromDoublingMinimum :
    Obligations.ZeroWithOverflowOnlyFromDoublingMinimum := by
  intro s rA rB a b hA hB row hrow
  obtain ⟨op, rfl⟩ := eq_of_mem_aluRows hrow
  obtain ⟨t, hexec, ht⟩ := exec_aluInstr_completes hA hB op
  refine ⟨t, hexec, ?_⟩
  rw [ht.codes, aluInstr_eq_addq_iff]
  exact ⟨aluFlags_OF_and_ZF_iff op a b, aluFlags_not_ZF_and_SF op a b⟩

end Sys2Proof.Proofs

/-! The obligations of spec/45_jump.md, settled: the seven jumps. -/

namespace Sys2Proof.Proofs

open Sys2Proof.Machine Sys2Proof.Claims

/-- Each row of the jumps is the shared rule R120 under one of the predicates of R90. -/
theorem exec_of_mem_jumpRows {dest : Word} {c : CondCodes} {row : Instr × Bool}
    (h : row ∈ jumpRows dest c) : ∃ p, exec row.1 = jumpIf p dest ∧ condHolds p c = row.2 := by
  simp only [jumpRows, List.mem_cons, List.not_mem_nil, or_false] at h
  rcases h with rfl | rfl | rfl | rfl | rfl | rfl | rfl
  · exact ⟨.always, rfl, rfl⟩
  · exact ⟨.le, rfl, rfl⟩
  · exact ⟨.l, rfl, rfl⟩
  · exact ⟨.e, rfl, rfl⟩
  · exact ⟨.ne, rfl, rfl⟩
  · exact ⟨.ge, rfl, rfl⟩
  · exact ⟨.g, rfl, rfl⟩

/-- A jump completes whatever its predicate says, and the target is not checked (R120). -/
theorem jumpIf_eq (p : Pred) (dest : Word) (s : State) :
    jumpIf p dest s = .next (s.completed (if condHolds p s.cc then dest else s.pc + 9)) := by
  rw [jumpIf, complete_eq]

/-- The unconditional jump is the shared rule under the predicate that holds for any codes (R121). -/
theorem exec_jmp (dest : Word) (s : State) : exec (.jmp dest) s = .next (s.completed dest) :=
  jumpIf_eq .always dest s

/-- Completing writes no register. -/
theorem regsKept_completed (s : State) (pc : Word) : RegsKeptExcept [] s (s.completed pc) :=
  fun r _ => readReg_completed s r pc

/-- Settles O28: each jump is the shared rule under its predicate, and completing keeps all but the
`pc`. -/
theorem jumpsSetPcWherePredicateHolds : Obligations.JumpsSetPcWherePredicateHolds := by
  intro s dest row hrow
  obtain ⟨p, hexec, htaken⟩ := exec_of_mem_jumpRows hrow
  rw [hexec, ← htaken]
  exact ⟨_, jumpIf_eq p dest s, completed_pc .., regsKept_completed s _, completed_cc ..,
    ⟨rfl, fun _ => rfl⟩, completed_stat .., completed_steps ..⟩

/-- Settles O29: the opcode byte heads the encoding, and the jump reads no code. -/
theorem jmpAlwaysSetsPc : Obligations.JmpAlwaysSetsPc := by
  intro dest
  have hopcode : encode (.jmp dest) = 0x70 :: bytesOf dest := rfl
  exact ⟨⟨_, hopcode⟩, fun s c => exec_jmp dest { s with cc := c }⟩

end Sys2Proof.Proofs

/-! The obligations of spec/46_call_return.md, settled: call, ret, and a ret that matches a call. -/

namespace Sys2Proof.Proofs

open Sys2Proof.Machine Sys2Proof.Claims

/-! ### Memory and registers under a stack access -/

/-- A word that reads in one memory reads in any other of the same capacity that holds its eight bytes. -/
theorem read8_of_same_bytes {m m' : Memory} {a v : Word} (h : m.read8 a = some v)
    (hsize : m'.size = m.size)
    (hbytes : ∀ j < 8, m'.byteAt (a.toNat + j) = m.byteAt (a.toNat + j)) : m'.read8 a = some v := by
  obtain ⟨hv, hword⟩ := read8_eq_some_iff.mp h
  have hv' : m'.Valid a 8 := by rwa [Memory.Valid, hsize]
  exact read8_eq_some_iff.mpr ⟨hv', fun j hj => (hbytes j hj).trans (hword j hj)⟩

/-- A store and a new stack pointer leave every register but `%rsp`. -/
theorem regsKept_setMem_setRsp (s : State) (m : Memory) (sp pc : Word) :
    RegsKeptExcept [RSP] s (((s.setMem m).setRsp sp).completed pc) :=
  regsKept_writeReg (s.setMem m) RSP sp pc

/-! ### The two outcomes of call and of ret -/

section Outcomes

variable {s : State}

theorem exec_call_of_write8 {m : Memory} (hm : s.mem.write8 (s.rsp - 8) (s.pc + 9) = some m)
    (dest : Word) :
    exec (.call dest) s = .next (((s.setMem m).setRsp (s.rsp - 8)).completed dest) := by
  rw [exec, execCall, withWrite8_some hm, complete_eq]

/-- The stack slot is checked before the stack pointer changes (R35, conflict C5). -/
theorem exec_call_of_not_valid (hv : ¬ s.mem.Valid (s.rsp - 8) 8) (dest : Word) :
    exec (.call dest) s = .next (s.stopped .addressFault) := by
  rw [exec, execCall, withWrite8_invalid hv]

theorem exec_ret_of_read8 {v : Word} (hv : s.mem.read8 s.rsp = some v) :
    exec .ret s = .next ((s.setRsp (s.rsp + 8)).completed v) := by
  rw [exec, execRet, withRead8_some hv, complete_eq]

theorem exec_ret_of_not_valid (hv : ¬ s.mem.Valid s.rsp 8) :
    exec .ret s = .next (s.stopped .addressFault) := by
  rw [exec, execRet, withRead8_invalid hv]

end Outcomes

/-- A call that completes leaves the return address readable at the new stack pointer. -/
theorem return_address_on_stack {s t : State} {dest : Word} (hwf : s.mem.wf)
    (h : exec (.call dest) s = .next t) (ht : t.stat = .ok) :
    t.rsp = s.rsp - 8 ∧ t.mem.read8 t.rsp = some (s.pc + 9) := by
  rcases execCall_next h with ⟨m, hm, rfl⟩ | ⟨-, rfl⟩
  · have hrsp : (((s.setMem m).setRsp (s.rsp - 8)).completed dest).rsp = s.rsp - 8 :=
      setRsp_rsp (s.setMem m) (s.rsp - 8)
    exact ⟨hrsp, hrsp.symm ▸ read8_write8_self hwf hm⟩
  · exact absurd ht (stopped_stat_ne_ok s .addressFault)

/-! ### The obligations of call and ret -/

/-- Settles O30: with the stack slot inside memory the call is one eight-byte write and a new stack
pointer, whose laws give the return address and what is kept; outside it is a stop. -/
theorem callPushesReturnAddress : Obligations.CallPushesReturnAddress := by
  intro s dest hwf
  refine ⟨fun hv => ?_, fun hv => exec_call_of_not_valid hv dest⟩
  obtain ⟨m, hm⟩ := exists_write8 hv (s.pc + 9)
  exact ⟨_, exec_call_of_write8 hm dest, fun _ hj => byteAt_write8_inside hwf hm hj,
    ⟨write8_size hm, fun _ hk => byteAt_write8_outside hm hk⟩, setRsp_rsp (s.setMem m) _,
    regsKept_setMem_setRsp s m _ dest, completed_pc .., rfl, completed_stat .., rfl⟩

/-- Settles O31: with the stack slot inside memory the word read there is the new `pc`, and the stack
pointer is the one register written; outside it is a stop. -/
theorem retPopsIntoPc : Obligations.RetPopsIntoPc := by
  intro s
  refine ⟨fun hv => ?_, exec_ret_of_not_valid⟩
  obtain ⟨v, hread⟩ := exists_read8 hv
  exact ⟨_, exec_ret_of_read8 hread, (read8_eq_some_iff.mp hread).2, setRsp_rsp s _,
    regsKept_writeReg s RSP _ v, rfl, ⟨rfl, fun _ => rfl⟩, completed_stat .., rfl⟩

/-- Settles O34: the return address reads in the later memory as it did after the call, so that the ret
takes it, and adding 8 undoes the call's subtraction modulo 2^64. -/
theorem callThenRetReturns : Obligations.CallThenRetReturns := by
  intro s t u dest hwf hcall ht hsize hrsp hbytes
  obtain ⟨hpushed, hread⟩ := return_address_on_stack hwf hcall ht
  have hpop : u.mem.read8 u.rsp = some (s.pc + 9) := hrsp ▸ read8_of_same_bytes hread hsize hbytes
  have hrestored : u.rsp + 8 = s.rsp := by rw [hrsp, hpushed, BitVec.sub_add_cancel]
  exact ⟨_, exec_ret_of_read8 hpop, completed_pc .., (setRsp_rsp u _).trans hrestored,
    completed_stat ..⟩

end Sys2Proof.Proofs

/-! The obligations of spec/47_push_pop.md, settled: push, pop, and a pop that matches a push. -/

namespace Sys2Proof.Proofs

open Sys2Proof.Machine Sys2Proof.Claims

/-! ### The two outcomes of push and of pop where `rA` names a register -/

section StackOutcomes

variable {s : State} {rA : RegId}

/-- The value stored is the one from before the stack pointer changes, for `%rsp` too (D22). -/
theorem exec_pushq_of_write8 {a : Word} {m : Memory} (ha : s.readReg rA = some a)
    (hm : s.mem.write8 (s.rsp - 8) a = some m) :
    exec (.pushq rA) s = .next (((s.setMem m).setRsp (s.rsp - 8)).completed (s.pc + 2)) := by
  rw [exec, execPushq, withReg_some ha, withWrite8_some hm, complete_eq]

theorem exec_pushq_of_not_valid {a : Word} (ha : s.readReg rA = some a)
    (hv : ¬ s.mem.Valid (s.rsp - 8) 8) :
    exec (.pushq rA) s = .next (s.stopped .addressFault) := by
  rw [exec, execPushq, withReg_some ha, withWrite8_invalid hv]

theorem exec_popq_of_read8 {v : Word} (hA : rA ≠ RNONE) (hv : s.mem.read8 s.rsp = some v) :
    exec (.popq rA) s =
      .next (((s.writeReg rA v).setRsp ((s.writeReg rA v).rsp + 8)).completed (s.pc + 2)) := by
  obtain ⟨old, hold⟩ := exists_readReg s hA
  rw [exec, execPopq, withReg_some hold, withRead8_some hv, complete_eq]

theorem exec_popq_of_not_valid (hA : rA ≠ RNONE) (hv : ¬ s.mem.Valid s.rsp 8) :
    exec (.popq rA) s = .next (s.stopped .addressFault) := by
  obtain ⟨old, hold⟩ := exists_readReg s hA
  rw [exec, execPopq, withReg_some hold, withRead8_invalid hv]

end StackOutcomes

/-! ### The registers after a pop -/

theorem rsp_writeReg_RSP (s : State) (v : Word) : (s.writeReg RSP v).rsp = v := setRsp_rsp s v

/-- `t` is `s` after a pop of `v` into `rA` (R136): for `%rsp` the increment comes on top of the loaded
word (D23). -/
structure PopCompletes (rA : RegId) (v : Word) (s t : State) : Prop where
  loaded : rA ≠ RSP → t.readReg rA = some v ∧ t.rsp = s.rsp + 8
  loadedRsp : rA = RSP → t.rsp = v + 8
  regs : RegsKeptExcept [rA, RSP] s t
  pc : t.pc = s.pc + 2
  cc : t.cc = s.cc
  mem : MemKept s t
  stat : t.stat = .ok
  steps : t.steps = s.steps

theorem exec_popq_completes {s : State} {rA : RegId} {v : Word} (hA : rA ≠ RNONE)
    (hv : s.mem.read8 s.rsp = some v) :
    ∃ t, exec (.popq rA) s = .next t ∧ PopCompletes rA v s t := by
  have hexec := exec_popq_of_read8 hA hv
  refine ⟨_, hexec, ?_⟩
  exact {
    loaded := fun hrsp => by
      rw [readReg_completed, readReg_setRsp_other _ _ hrsp, readReg_writeReg_self _ _ hA,
        completed_rsp, setRsp_rsp, rsp_writeReg_other _ _ hrsp]
      exact ⟨rfl, rfl⟩
    loadedRsp := fun hrsp => by
      rw [hrsp, completed_rsp, setRsp_rsp, rsp_writeReg_RSP]
    regs := registersChangeOnlyAsTabled _ _ _ hexec
    pc := completed_pc ..
    cc := by simp
    mem := by simp [MemKept]
    stat := completed_stat ..
    steps := by simp }

/-- A push that completes leaves the pushed value readable at the new stack pointer. -/
theorem pushed_value_on_stack {s t : State} {rA : RegId} {a : Word} (hwf : s.mem.wf)
    (ha : s.readReg rA = some a) (h : exec (.pushq rA) s = .next t) (ht : t.stat = .ok) :
    t.rsp = s.rsp - 8 ∧ t.mem.read8 t.rsp = some a := by
  rcases execPushq_next h with ⟨a', m, ha', hm, rfl⟩ | ⟨-, rfl⟩ | ⟨-, -, rfl⟩
  · obtain rfl := Option.some.inj (ha'.symm.trans ha)
    have hrsp : (((s.setMem m).setRsp (s.rsp - 8)).completed (s.pc + 2)).rsp = s.rsp - 8 :=
      setRsp_rsp (s.setMem m) (s.rsp - 8)
    exact ⟨hrsp, hrsp.symm ▸ read8_write8_self hwf hm⟩
  all_goals exact absurd ht (stopped_stat_ne_ok s _)

/-! ### The obligations of push and pop -/

/-- Settles O32: with the stack slot inside memory the push is one eight-byte write of the old value and
a new stack pointer, whose laws give the word and what is kept; outside it is a stop. -/
theorem pushqStoresOldValue : Obligations.PushqStoresOldValue := by
  intro s rA a hwf ha
  refine ⟨fun hv => ?_, exec_pushq_of_not_valid ha⟩
  obtain ⟨m, hm⟩ := exists_write8 hv a
  exact ⟨_, exec_pushq_of_write8 ha hm, fun _ hj => byteAt_write8_inside hwf hm hj,
    ⟨write8_size hm, fun _ hk => byteAt_write8_outside hm hk⟩, setRsp_rsp (s.setMem m) _,
    regsKept_setMem_setRsp s m _ _, completed_pc .., rfl, completed_stat .., rfl⟩

/-- Settles O33: with the stack slot inside memory the pop is two register writes, the second from what
the first left in `%rsp`; outside it is a stop. -/
theorem popqLoadsThenIncrements : Obligations.PopqLoadsThenIncrements := by
  intro s rA hA
  refine ⟨fun hv => ?_, exec_popq_of_not_valid hA⟩
  obtain ⟨v, hread⟩ := exists_read8 hv
  obtain ⟨t, hexec, ht⟩ := exec_popq_completes hA hread
  exact ⟨t, v, hexec, (read8_eq_some_iff.mp hread).2, ht.loaded, ht.loadedRsp, ht.regs, ht.pc, ht.cc,
    ht.mem, ht.stat, ht.steps⟩

/-- Settles O35: the pushed value reads in the later memory as it did after the push, so that the pop
loads it, and adding 8 undoes the push's subtraction modulo 2^64. -/
theorem pushThenPopRestores : Obligations.PushThenPopRestores := by
  intro s t u rA rX a hwf ha hpush ht hX hXrsp hsize hrsp hbytes
  obtain ⟨hpushed, hread⟩ := pushed_value_on_stack hwf ha hpush ht
  have hpop : u.mem.read8 u.rsp = some a := hrsp ▸ read8_of_same_bytes hread hsize hbytes
  obtain ⟨w, hexec, hw⟩ := exec_popq_completes hX hpop
  obtain ⟨hloaded, hmoved⟩ := hw.loaded hXrsp
  have hrestored : u.rsp + 8 = s.rsp := by rw [hrsp, hpushed, BitVec.sub_add_cancel]
  exact ⟨w, hexec, hloaded, hmoved.trans hrestored, hw.stat⟩

end Sys2Proof.Proofs

/-! The obligations of spec/60_exceptions.md, settled: which status a step ends in, what a stop changes,
and where there is a step at all. -/

namespace Sys2Proof.Proofs

open Sys2Proof.Machine Sys2Proof.Claims
open Host (Outcome)

/-! ### Where there is a step -/

theorem exec_answers_next (i : Instr) (s : State) : ∃ t, exec i s = .next t := by
  obtain ⟨t, h, -⟩ := statusAndStepsAreNotObservable i s s.stat s.steps
  exact ⟨t, h⟩

theorem step_answers_next {s : State} (hs : s.stat = .ok) : ∃ t, step s = .next t := by
  rcases h : fetchDecode s with e | i
  · exact ⟨_, step_of_error hs h⟩
  · rw [step_of_fetch hs h]
    exact exec_answers_next i s.tick

theorem step_steps {s t : State} (h : step s = .next t) : t.steps = s.steps + 1 := by
  obtain ⟨-, ⟨e, -, rfl⟩ | ⟨i, -, h⟩⟩ := step_next h
  · rfl
  · exact exec_steps h

theorem step_of_stoppedFault {s : State} {f : Fault} (h : stoppedFault s.stat = some f) :
    step s = .fault f := by
  rw [step, h]

theorem exists_stoppedFault {x : Status} (h : x ≠ .ok) : ∃ f, stoppedFault x = some f :=
  Option.ne_none_iff_exists'.mp fun hnone => h (stoppedFault_eq_none_iff.mp hnone)

/-! ### The status an instruction ends in -/

/-- The address of the data access an instruction makes, if it makes one (R105, R130, R131, R135,
R136). -/
def dataAccess (s : State) : Instr → Option Word
  | .rmmovq _ rB d | .mrmovq _ rB d => some (effectiveAddress rB d s)
  | .call _ | .pushq _ => some (s.rsp - 8)
  | .ret | .popq _ => some s.rsp
  | .halt | .nop | .rrmovq _ _ | .cmovle _ _ | .cmovl _ _ | .cmove _ _ | .cmovne _ _
  | .cmovge _ _ | .cmovg _ _ | .irmovq _ _ | .addq _ _ | .subq _ _ | .andq _ _ | .xorq _ _
  | .jmp _ | .jle _ | .jl _ | .je _ | .jne _ | .jge _ | .jg _ => none

/-- The last three causes of R145, for an instruction that has been fetched: a register field that names
no register, the data access, halt. -/
def execStatus (i : Instr) (s : State) : Status :=
  if i.wf = false then .ins
  else if (dataAccess s i).any (fun a => ¬ s.mem.Valid a 8) then .adr
  else if i = .halt then .hlt
  else .ok

theorem execStatus_of_access {i : Instr} {s : State} {a : Word} (hwf : i.wf = true)
    (ha : dataAccess s i = some a) (hi : i ≠ .halt) :
    execStatus i s = if s.mem.Valid a 8 then .ok else .adr := by
  by_cases hv : s.mem.Valid a 8 <;> simp [execStatus, hwf, ha, hi, hv]

theorem execStatus_of_no_access {i : Instr} {s : State} (hwf : i.wf = true)
    (ha : dataAccess s i = none) (hi : i ≠ .halt) : execStatus i s = .ok := by
  simp [execStatus, hwf, ha, hi]

theorem complete_stat {pc : Word} {s t : State} (h : complete pc s = .next t) : t.stat = .ok := by
  obtain rfl := Outcome.next.inj h
  rfl

/-- A good register field does not stop the rule. -/
theorem withReg_next_of_named {r : RegId} (hr : RegId.named r = true) {s t : State}
    {k : Word → Result} (h : withReg r s k = .next t) : ∃ v, k v = .next t := by
  rcases withReg_eq_next.mp h with ⟨v, -, h⟩ | ⟨rfl, -⟩
  · exact ⟨v, h⟩
  · cases hr

theorem withRead8_stat {a : Word} {s t : State} {k : Word → Result}
    (hk : ∀ v, k v = .next t → t.stat = .ok) (h : withRead8 a s k = .next t) :
    t.stat = if s.mem.Valid a 8 then .ok else .adr := by
  rcases withRead8_eq_next.mp h with ⟨v, hread, h⟩ | ⟨hv, rfl⟩
  · rw [if_pos (read8_eq_some_iff.mp hread).1, hk v h]
  · exact (if_neg hv).symm

theorem withWrite8_stat {a v : Word} {s t : State} {k : State → Result}
    (hk : ∀ s', k s' = .next t → t.stat = .ok) (h : withWrite8 a v s k = .next t) :
    t.stat = if s.mem.Valid a 8 then .ok else .adr := by
  rcases withWrite8_eq_next.mp h with ⟨m, hm, h⟩ | ⟨hv, rfl⟩
  · rw [if_pos (write8_eq_some_iff.mp hm).1, hk _ h]
  · exact (if_neg hv).symm

/-- Where the register fields are good, each instruction's rule leaves the status of its data access, or
halt's, or `OK`. -/
theorem exec_stat_of_wf {i : Instr} (hwf : i.wf = true) {s t : State} (h : exec i s = .next t) :
    t.stat = execStatus i s := by
  cases i with
  | halt =>
    obtain rfl := Outcome.next.inj h
    rfl
  | nop | jmp dest | jle dest | jl dest | je dest | jne dest | jge dest | jg dest =>
    rw [execStatus_of_no_access hwf rfl nofun]
    exact complete_stat h
  | rrmovq rA rB | cmovle rA rB | cmovl rA rB | cmove rA rB | cmovne rA rB | cmovge rA rB
  | cmovg rA rB | addq rA rB | subq rA rB | andq rA rB | xorq rA rB =>
    rw [execStatus_of_no_access hwf rfl nofun]
    obtain ⟨hA, hB⟩ := (Bool.and_eq_true _ _).mp hwf
    obtain ⟨a, h⟩ := withReg_next_of_named hA h
    obtain ⟨b, h⟩ := withReg_next_of_named hB h
    exact complete_stat h
  | irmovq rB v =>
    rw [execStatus_of_no_access hwf rfl nofun]
    obtain ⟨b, h⟩ := withReg_next_of_named hwf h
    exact complete_stat h
  | rmmovq rA rB d | pushq rA =>
    rw [execStatus_of_access hwf rfl nofun]
    obtain ⟨a, h⟩ := withReg_next_of_named hwf h
    exact withWrite8_stat (fun _ => complete_stat) h
  | mrmovq rA rB d | popq rA =>
    rw [execStatus_of_access hwf rfl nofun]
    obtain ⟨a, h⟩ := withReg_next_of_named hwf h
    exact withRead8_stat (fun _ => complete_stat) h
  | call dest =>
    rw [execStatus_of_access hwf rfl nofun]
    rw [exec, execCall] at h
    exact withWrite8_stat (fun _ => complete_stat) h
  | ret =>
    rw [execStatus_of_access hwf rfl nofun]
    exact withRead8_stat (fun _ => complete_stat) h

theorem exec_stat {i : Instr} {s t : State} (h : exec i s = .next t) : t.stat = execStatus i s := by
  cases hwf : i.wf with
  | false =>
    rw [exec_of_not_wf hwf] at h
    obtain rfl := Outcome.next.inj h
    exact (if_pos hwf).symm
  | true => exact exec_stat_of_wf hwf h

theorem execStatus_eq_hlt_iff {i : Instr} {s : State} : execStatus i s = .hlt ↔ i = .halt := by
  constructor
  · intro h
    by_contra hi
    rw [execStatus, if_neg hi] at h
    split_ifs at h
  · rintro rfl; rfl

theorem causeOf_status_ne_hlt (e : DecodeError) : (causeOf e).status ≠ .hlt := by
  cases e <;> decide

/-! ### What the fetch collects -/

theorem bytesFrom_succ_of_valid {m : Memory} {a : Word} (h : m.Valid a 1) (n : Nat) :
    m.bytesFrom a (n + 1) = m.byteAt a.toNat :: m.bytesFrom (a + 1) n := by
  rw [Memory.bytesFrom, read1_eq_some_iff.mpr ⟨h, rfl⟩]

theorem bytesFrom_of_not_valid {m : Memory} {a : Word} (h : ¬ m.Valid a 1) (n : Nat) :
    m.bytesFrom a n = [] := by
  cases n with
  | zero => rfl
  | succ n => rw [Memory.bytesFrom, read1_eq_none_iff.mpr h]

/-- The constant the fetch collects at an address is the word that reads there. -/
theorem wordAtFront_bytesFrom {m : Memory} (hm : m.wf) (a : Word) {n : Nat} (hn : 8 ≤ n) :
    wordAtFront (m.bytesFrom a n) = m.read8 a := by
  rcases h : m.read8 a with _ | v
  · have hv := read8_eq_none_iff.mp h
    refine (wordAtFront_eq_none_iff _).mpr (Nat.not_le.mp fun hlen => hv ?_)
    exact valid_of_le_bytesFrom hm (by decide) hlen
  · obtain ⟨rest, hrest⟩ := bytesFrom_eq_append (m := m) (bs := bytesOf v) (a := a) (n := n) hn
      (bytesStandAtPc_of_read8 (s := { State.reset with pc := a, mem := m }) hm h)
    rw [hrest, wordAtFront_bytesOf]

/-! ### Shapes and the tables by class (R50, R59, R60, R105) -/

/-- The instruction a shape becomes with the operands that its format holds. -/
def fill : Shape → RegId → RegId → Word → Instr
  | .plain i, _, _, _ => i
  | .regs f, rA, rB, _ => f rA rB
  | .target f, _, _, c => f c
  | .regsConst f, rA, rB, c => f rA rB c

/-- The class has a register byte and a constant exactly as the format of the shape has (R50, R53). -/
def FormatOfClass (icode : Nat) : Shape → Prop
  | .plain _ => hasRegisterByte icode = false ∧ constantAt icode = none
  | .regs _ => hasRegisterByte icode = true ∧ constantAt icode = none
  | .target _ => hasRegisterByte icode = false ∧ constantAt icode = some 1
  | .regsConst _ => hasRegisterByte icode = true ∧ constantAt icode = some 2

theorem formatOfClass_of_shapeOf {b0 : Byte} {shape : Shape} (h : shapeOf b0 = some shape) :
    FormatOfClass (b0.toNat / 16) shape := by
  unfold shapeOf at h
  split at h <;> cases h <;> exact ⟨rfl, rfl⟩

/-- R59: the opcode map knows exactly the bytes the table of classes and sub-functions has. -/
theorem shapeOf_isSome (b0 : Byte) :
    (shapeOf b0).isSome = recognised (b0.toNat / 16) (b0.toNat % 16) := by
  revert b0; decide

theorem toNat_highNibble (b : Byte) : (highNibble b).toNat = b.toNat / 16 := by
  revert b; decide

theorem toNat_lowNibble (b : Byte) : (lowNibble b).toNat = b.toNat % 16 := by
  revert b; decide

theorem toNat_beq_fifteen (r : RegId) : (r.toNat == 15) = (r == RNONE) := by
  revert r; decide

/-- The register fields that R60 needs, by the class nibble and by the instruction. -/
theorem fieldFails_iff_not_wf {b0 : Byte} {shape : Shape} (h : shapeOf b0 = some shape) (b1 : Byte)
    (c : Word) :
    fieldFails (b0.toNat / 16) (b1.toNat / 16) (b1.toNat % 16) = true ↔
      (fill shape (highNibble b1) (lowNibble b1) c).wf = false := by
  rw [← toNat_highNibble b1, ← toNat_lowNibble b1, fieldFails, toNat_beq_fifteen, toNat_beq_fifteen]
  unfold shapeOf at h
  split at h <;> cases h <;> simp [fill, Instr.wf, RegId.named, bne] <;> tauto

theorem baseValue_eq (rB : RegId) (s : State) :
    baseValue rB s = if rB = RNONE then 0 else (s.readReg rB).getD 0 := by
  by_cases hB : rB = RNONE
  · rw [if_pos hB, hB, baseValue_RNONE]
  · obtain ⟨v, hv⟩ := exists_readReg s hB
    rw [if_neg hB, baseValue_some hv, hv, Option.getD_some]

theorem dataAccess_fill {b0 : Byte} {shape : Shape} (h : shapeOf b0 = some shape)
    (rA rB : RegId) (c : Word) (s : State) :
    dataAccess s (fill shape rA rB c) = dataAddress (b0.toNat / 16) rB c s := by
  unfold dataAddress
  rw [← baseValue_eq]
  unfold shapeOf at h
  split at h <;> cases h <;> rfl

theorem fill_eq_halt_iff {b0 : Byte} {shape : Shape} (h : shapeOf b0 = some shape)
    (rA rB : RegId) (c : Word) : fill shape rA rB c = .halt ↔ b0.toNat / 16 = 0 := by
  unfold shapeOf at h
  split at h <;> cases h <;> simp [fill]

/-! ### The fetch by the class nibble (R57) -/

/-- The constant of a class, where it has one that lies inside memory. -/
def classConstant (icode : Nat) (s : State) : Word :=
  ((constantAt icode).bind fun k => s.mem.read8 (s.pc + BitVec.ofNat 64 k)).getD 0

/-- Checks 3 and 4 of R57 after the opcode byte, by the class nibble. -/
def fetchByClass (icode : Nat) (shape : Shape) (s : State) : Except DecodeError Instr :=
  let b1 := s.mem.byteAt (s.pc.toNat + 1)
  if hasRegisterByte icode ∧ ¬ s.mem.Valid (s.pc + 1) 1 then .error .registerByteFetch
  else if (constantAt icode).any (fun k => ¬ s.mem.Valid (s.pc + BitVec.ofNat 64 k) 8) then
    .error .constantFetch
  else .ok (fill shape (highNibble b1) (lowNibble b1) (classConstant icode s))

theorem fetchDecode_of_unrecognised {s : State} (hv : s.mem.Valid s.pc 1)
    (h : shapeOf (s.mem.byteAt s.pc.toNat) = none) :
    fetchDecode s = .error .unrecognisedOpcode := by
  rw [fetchDecode, maxLength, bytesFrom_succ_of_valid hv, decode, h]

theorem fetchDecode_of_shapeOf {s : State} {shape : Shape} (hv : s.mem.Valid s.pc 1)
    (h : shapeOf (s.mem.byteAt s.pc.toNat) = some shape) :
    fetchDecode s = shape.operands (s.mem.bytesFrom (s.pc + 1) 9) := by
  rw [fetchDecode, maxLength, bytesFrom_succ_of_valid hv, decode, h]

theorem operands_regs_bytesFrom (m : Memory) (f : RegId → RegId → Instr) (a : Word) (n : Nat) :
    (Shape.regs f).operands (m.bytesFrom a (n + 1)) =
      if ¬ m.Valid a 1 then .error .registerByteFetch
      else .ok (f (highNibble (m.byteAt a.toNat)) (lowNibble (m.byteAt a.toNat))) := by
  by_cases hv : m.Valid a 1
  · rw [bytesFrom_succ_of_valid hv, if_neg (not_not.mpr hv)]; rfl
  · rw [bytesFrom_of_not_valid hv, if_pos hv]; rfl

theorem operands_target_bytesFrom {m : Memory} (hm : m.wf) (f : Word → Instr) (a : Word) {n : Nat}
    (hn : 8 ≤ n) :
    (Shape.target f).operands (m.bytesFrom a n) =
      if ¬ m.Valid a 8 then .error .constantFetch else .ok (f ((m.read8 a).getD 0)) := by
  rw [Shape.operands, wordAtFront_bytesFrom hm a hn]
  rcases h : m.read8 a with _ | c
  · rw [if_pos (read8_eq_none_iff.mp h)]
  · rw [if_neg (not_not.mpr (read8_eq_some_iff.mp h).1)]; rfl

/-- After the register byte, format `I` is format `J` (R50). -/
theorem operands_regsConst_bytesFrom {m : Memory} (hm : m.wf) (f : RegId → RegId → Word → Instr)
    (a : Word) {n : Nat} (hn : 8 ≤ n) :
    (Shape.regsConst f).operands (m.bytesFrom a (n + 1)) =
      if ¬ m.Valid a 1 then .error .registerByteFetch
      else if ¬ m.Valid (a + 1) 8 then .error .constantFetch
      else .ok (f (highNibble (m.byteAt a.toNat)) (lowNibble (m.byteAt a.toNat))
        ((m.read8 (a + 1)).getD 0)) := by
  by_cases hv : m.Valid a 1
  · rw [bytesFrom_succ_of_valid hv, if_neg (not_not.mpr hv)]
    exact operands_target_bytesFrom hm (f _ _) (a + 1) hn
  · rw [bytesFrom_of_not_valid hv, if_pos hv]; rfl

theorem operands_eq_fetchByClass {s : State} {shape : Shape} {icode : Nat} (hm : s.mem.wf)
    (hv : s.mem.Valid s.pc 1) (h : FormatOfClass icode shape) :
    shape.operands (s.mem.bytesFrom (s.pc + 1) 9) = fetchByClass icode shape s := by
  have hb1 : s.mem.byteAt (s.pc + 1).toNat = s.mem.byteAt (s.pc.toNat + 1) :=
    congrArg _ (toNat_add_of_valid hm hv (Nat.le_refl 1))
  have hpc2 : s.pc + 1 + 1 = s.pc + BitVec.ofNat 64 2 := BitVec.add_assoc ..
  cases shape with
  | plain i =>
    obtain ⟨hreg, hconst⟩ := h
    simp [fetchByClass, hreg, hconst, Shape.operands, fill]
  | regs f =>
    obtain ⟨hreg, hconst⟩ := h
    rw [operands_regs_bytesFrom, hb1]
    simp only [fetchByClass, hreg, hconst, true_and, Option.any_none, Bool.false_eq_true, if_false,
      fill]
  | target f =>
    obtain ⟨hreg, hconst⟩ := h
    rw [operands_target_bytesFrom hm f _ (by decide)]
    simp only [fetchByClass, classConstant, hreg, hconst, Bool.false_eq_true, false_and, if_false,
      Option.any_some, decide_eq_true_eq, fill, Option.bind_some]
    rfl
  | regsConst f =>
    obtain ⟨hreg, hconst⟩ := h
    rw [operands_regsConst_bytesFrom hm f _ (by decide), hb1, hpc2]
    simp only [fetchByClass, classConstant, hreg, hconst, true_and, Option.any_some,
      decide_eq_true_eq, fill, Option.bind_some]

/-! ### The priority list (R145) -/

/-- The status of a step after its fetch: what the failed check raises, or what the instruction ends
in. -/
def fetchedStatus (s : State) : Except DecodeError Instr → Status
  | .error e => (causeOf e).status
  | .ok i => execStatus i s

theorem execStatus_tick (i : Instr) (s : State) : execStatus i s.tick = execStatus i s := by
  cases i <;> rfl

/-- The status of every step, through the decoder and the instruction. -/
theorem step_stat {s t : State} (h : step s = .next t) :
    t.stat = fetchedStatus s (fetchDecode s) := by
  obtain ⟨-, ⟨e, he, rfl⟩ | ⟨i, hi, h⟩⟩ := step_next h
  · rw [he]; rfl
  · rw [hi, exec_stat h, execStatus_tick]; rfl

theorem statusByPriority_of_not_valid {s : State} (h : ¬ s.mem.Valid s.pc 1) :
    statusByPriority s = .adr := if_pos h

theorem statusByPriority_of_unrecognised {s : State} (hv : s.mem.Valid s.pc 1)
    (h : shapeOf (s.mem.byteAt s.pc.toNat) = none) : statusByPriority s = .ins := by
  have hrec := shapeOf_isSome (s.mem.byteAt s.pc.toNat)
  rw [h] at hrec
  rw [statusByPriority, if_neg (not_not.mpr hv), if_pos]
  simp [← hrec]

theorem statusByPriority_of_shapeOf {s : State} {shape : Shape} (hv : s.mem.Valid s.pc 1)
    (h : shapeOf (s.mem.byteAt s.pc.toNat) = some shape) :
    statusByPriority s =
      fetchedStatus s (fetchByClass ((s.mem.byteAt s.pc.toNat).toNat / 16) shape s) := by
  have hrec := shapeOf_isSome (s.mem.byteAt s.pc.toNat)
  rw [h, Option.isSome_some] at hrec
  rw [statusByPriority, if_neg (not_not.mpr hv), if_neg (not_not.mpr hrec.symm), fetchByClass]
  split
  · rfl
  split
  · rfl
  rw [fetchedStatus, execStatus, dataAccess_fill h]
  simp only [fill_eq_halt_iff h, ← fieldFails_iff_not_wf h]
  rfl

/-- The decoder's road to the status and the list of causes agree: outside memory, at a byte that is no
opcode, and, for a shape, check by check. -/
theorem fetchedStatus_eq_statusByPriority {s : State} (hm : s.mem.wf) :
    fetchedStatus s (fetchDecode s) = statusByPriority s := by
  by_cases hv : s.mem.Valid s.pc 1
  · rcases hshape : shapeOf (s.mem.byteAt s.pc.toNat) with _ | shape
    · rw [fetchDecode_of_unrecognised hv hshape, statusByPriority_of_unrecognised hv hshape]; rfl
    · rw [fetchDecode_of_shapeOf hv hshape,
        operands_eq_fetchByClass hm hv (formatOfClass_of_shapeOf hshape),
        statusByPriority_of_shapeOf hv hshape]
  · rw [fetchDecode_of_not_valid hv, statusByPriority_of_not_valid hv]; rfl

/-! ### The obligations of the statuses and stops -/

/-- Settles O9: the checks of the fetch read by the class nibble, and after them the status of the
instruction, are the causes of the list in its order. -/
theorem stepStatusIsFirstCauseInPriorityOrder :
    Obligations.StepStatusIsFirstCauseInPriorityOrder := by
  intro s hm hs
  obtain ⟨t, h⟩ := step_answers_next hs
  exact ⟨t, h, (step_stat h).trans (fetchedStatus_eq_statusByPriority hm), step_steps h⟩

/-- Settles O11: a step that does not end in `OK` is its counted start with the cause's status. -/
theorem haltAndInvalidStepsChangeOnlyStatAndSteps :
    Obligations.HaltAndInvalidStepsChangeOnlyStatAndSteps := by
  intro s t h ht
  obtain ⟨c, rfl⟩ := step_stopped h (by rcases ht with ht | ht <;> simp [ht])
  rfl

/-- Settles O12: a failed check raises a fault, and of the instructions halt alone ends in `HLT`; each of
the three stops has a fault of its own. -/
theorem hltRaisedByHaltAlone : Obligations.HltRaisedByHaltAlone := by
  refine ⟨fun s t h => ?_, fun s hs => ?_⟩
  · rw [step_stat h]
    rcases fetchDecode s with e | i
    · exact iff_of_false (causeOf_status_ne_hlt e) nofun
    · exact execStatus_eq_hlt_iff.trans (Except.ok.injEq i .halt).symm.to_iff
  · obtain ⟨f, hf⟩ := exists_stoppedFault (x := s.stat) (by rcases hs with hs | hs | hs <;> simp [hs])
    exact ⟨f, step_of_stoppedFault hf⟩

/-- Settles O13: the fault of a stopped core is the one its status names, and from `OK` there is a next
state. -/
theorem onlyOkStatesStep : Obligations.OnlyOkStatesStep := by
  intro s
  exact ⟨fun hs => step_of_stoppedFault (hs ▸ rfl), fun hs => step_of_stoppedFault (hs ▸ rfl),
    fun hs => step_of_stoppedFault (hs ▸ rfl), step_answers_next⟩

end Sys2Proof.Proofs

/-! The obligations of spec/70_reset_and_hazards.md, settled: reset, the run against its limit, and the
report. -/

namespace Sys2Proof.Proofs

open Sys2Proof.Machine Sys2Proof.Claims

/-! ### Reset -/

theorem resetWith_eq_some {size : Nat} {image : List Byte} (hpos : 1 ≤ size) (hsize : size < 2 ^ 63)
    (hfits : image.length ≤ size) :
    resetWith size image =
      some { State.reset with mem := (Memory.blank size).storeBytes 0 image } :=
  if_pos ⟨hpos, hsize, hfits⟩

theorem resetWith_eq_none_of_lt {size : Nat} {image : List Byte} (h : size < image.length) :
    resetWith size image = none :=
  if_neg fun ⟨_, _, hfits⟩ => Nat.not_le.mpr h hfits

theorem byteAt_blank (size k : Nat) : (Memory.blank size).byteAt k = 0 := rfl

theorem reset_readReg {r : RegId} (h : r ≠ RNONE) : State.reset.readReg r = some 0 := by
  rw [readReg_named _ h, State.reset, Vector.getElem_replicate]

theorem resetWith_cc {size : Nat} {image : List Byte} {s : State}
    (h : resetWith size image = some s) : s.cc = State.reset.cc := by
  unfold resetWith at h
  split at h
  · obtain rfl := Option.some.inj h
    rfl
  · cases h

/-! ### The run -/

theorem runFor_of_stopped {s : State} (hs : s.stat ≠ .ok) (n : Nat) : runFor n s = s := by
  obtain ⟨f, hf⟩ := exists_stoppedFault hs
  cases n with
  | zero => rfl
  | succ n => rw [runFor, step_of_stoppedFault hf]

theorem run_of_stopped {s : State} (hs : s.stat ≠ .ok) (n : Nat) : run n s = s :=
  runFor_of_stopped hs _

theorem run_of_limit {n : Nat} {s : State} (h : n ≤ s.steps) : run n s = s := by
  rw [run, Nat.sub_eq_zero_of_le h, runFor]

theorem run_of_step {n : Nat} {s t : State} (hn : s.steps < n) (h : step s = .next t) :
    run n s = run n t := by
  have hturns : n - s.steps = n - t.steps + 1 := by rw [step_steps h]; omega
  rw [run, hturns, runFor, h, run]

/-- Induction along a run to the limit `n`: where the loop of R165 turns no more, and back over one turn
of it. -/
theorem run_induction {n : Nat} {P : State → Prop}
    (stop : ∀ s : State, s.stat ≠ .ok ∨ n ≤ s.steps → P s)
    (turn : ∀ s t : State, s.stat = .ok → s.steps < n → step s = .next t → P t → P s)
    (s : State) : P s := by
  induction hk : n - s.steps generalizing s with
  | zero => exact stop s (.inr (by omega))
  | succ k ih =>
    by_cases hs : s.stat = .ok
    · obtain ⟨t, h⟩ := step_answers_next hs
      have hsteps := step_steps h
      exact turn s t hs (by omega) h (ih t (by omega))
    · exact stop s (.inl hs)

theorem run_of_loop_end {n : Nat} {s : State} (h : s.stat ≠ .ok ∨ n ≤ s.steps) : run n s = s :=
  h.elim (fun hs => run_of_stopped hs n) run_of_limit

theorem steps_le_run_steps (n : Nat) (s : State) : s.steps ≤ (run n s).steps := by
  induction s using run_induction (n := n) with
  | stop s hend => rw [run_of_loop_end hend]
  | turn s t _ hn h ih =>
    rw [run_of_step hn h]
    have hsteps := step_steps h
    omega

theorem run_steps_le {n : Nat} (s : State) (hs : s.steps ≤ n) : (run n s).steps ≤ n := by
  induction s using run_induction (n := n) with
  | stop s hend => rwa [run_of_loop_end hend]
  | turn s t _ hn h ih =>
    rw [run_of_step hn h]
    exact ih (step_steps h ▸ hn)

/-- A run ends where the loop turns no more: stopped, or at the limit. -/
theorem run_ends (n : Nat) (s : State) : (run n s).stat ≠ .ok ∨ n ≤ (run n s).steps := by
  induction s using run_induction (n := n) with
  | stop s hend => rwa [run_of_loop_end hend]
  | turn s t _ hn h ih => rwa [run_of_step hn h]

theorem run_run {m n : Nat} (hmn : m ≤ n) (s : State) : run n (run m s) = run n s := by
  induction s using run_induction (n := m) with
  | stop s hend => rw [run_of_loop_end hend]
  | turn s t _ hm h ih => rw [run_of_step hm h, run_of_step (Nat.lt_of_lt_of_le hm hmn) h, ih]

/-! ### The report -/

theorem pack_getLsbD (c : CondCodes) :
    c.pack.getLsbD 2 = c.ZF ∧ c.pack.getLsbD 1 = c.SF ∧ c.pack.getLsbD 0 = c.OF := by
  obtain ⟨z, s, o⟩ := c
  revert z s o; decide

theorem mem_changeAt {α : Type} {place : α} {before after : Word} {c : Change α} :
    c ∈ changeAt place before after ↔
      c.place = place ∧ c.before = before ∧ c.after = after ∧ c.before ≠ c.after := by
  unfold changeAt
  split
  · next heq => exact iff_of_false List.not_mem_nil fun ⟨_, hb, ha, hne⟩ => hne (by rw [hb, ha, heq])
  · next hne =>
    rw [List.mem_singleton]
    constructor
    · rintro rfl; exact ⟨rfl, rfl, rfl, hne⟩
    · rintro ⟨rfl, rfl, rfl, -⟩; rfl

/-- The registers that read are the fifteen the report goes through (R11). -/
theorem readReg_eq_some_iff {s : State} {r : RegId} {v : Word} :
    s.readReg r = some v ↔ ∃ j : Fin 15, r = BitVec.ofNat 4 j.val ∧ v = s.regs[j] := by
  constructor
  · intro h
    have hr := named_of_readReg h
    rw [readReg_named s hr] at h
    exact ⟨⟨r.toNat, toNat_lt_of_named hr⟩, by simp, (Option.some.inj h).symm⟩
  · rintro ⟨j, rfl, rfl⟩
    have hj : (BitVec.ofNat 4 j.val).toNat = j.val := by simp; omega
    simp [State.readReg, hj]

theorem readReg_ofNat (s : State) (j : Fin 15) :
    s.readReg (BitVec.ofNat 4 j.val) = some s.regs[j] :=
  readReg_eq_some_iff.mpr ⟨j, rfl, rfl⟩

theorem mem_report_registers {s0 s : State} {c : Change RegId} :
    c ∈ (report s0 s).registers ↔
      s0.readReg c.place = some c.before ∧ s.readReg c.place = some c.after ∧
      c.before ≠ c.after := by
  simp only [report, List.mem_flatMap, List.mem_finRange, true_and, mem_changeAt]
  constructor
  · rintro ⟨j, hplace, hbefore, hafter, hne⟩
    rw [hplace, readReg_ofNat, readReg_ofNat, hbefore, hafter]
    exact ⟨rfl, rfl, hbefore ▸ hafter ▸ hne⟩
  · rintro ⟨hbefore, hafter, hne⟩
    obtain ⟨j, hplace, hj⟩ := readReg_eq_some_iff.mp hbefore
    rw [hplace, readReg_ofNat] at hafter
    exact ⟨j, hplace, hj, (Option.some.inj hafter).symm, hne⟩

theorem byteOf_wordAt (m : Memory) (k : Nat) {j : Nat} (hj : j < 8) :
    byteOf (m.wordAt k) j = m.byteAt (k + j) := by
  have hbytes := byteOf_eq_bytesOf (m.wordAt k) hj
  rw [Memory.wordAt, bytesOf_wordOf] at hbytes
  have : j = 0 ∨ j = 1 ∨ j = 2 ∨ j = 3 ∨ j = 4 ∨ j = 5 ∨ j = 6 ∨ j = 7 := by omega
  rcases this with rfl | rfl | rfl | rfl | rfl | rfl | rfl | rfl <;>
    exact (Option.some.inj hbytes).symm

/-- A word is its eight bytes. -/
theorem eq_of_byteOf_eq {v w : Word} (h : ∀ j < 8, byteOf v j = byteOf w j) : v = w := by
  rw [← wordOf_byteOf v, ← wordOf_byteOf w]
  simp [h]

theorem eq_wordAt_iff {m : Memory} {k : Nat} {v : Word} :
    v = m.wordAt k ↔ ∀ j < 8, m.byteAt (k + j) = byteOf v j := by
  constructor
  · rintro rfl j hj
    exact (byteOf_wordAt m k hj).symm
  · intro h
    exact eq_of_byteOf_eq fun j hj => (h j hj).symm.trans (byteOf_wordAt m k hj).symm

theorem mem_report_words {s0 s : State} {c : Change Nat} :
    c ∈ (report s0 s).words ↔
      8 ∣ c.place ∧ c.place + 8 ≤ s.mem.size ∧ c.before = s0.mem.wordAt c.place ∧
      c.after = s.mem.wordAt c.place ∧ c.before ≠ c.after := by
  simp only [report, List.mem_flatMap, List.mem_range, mem_changeAt]
  constructor
  · rintro ⟨j, hj, hplace, hchange⟩
    rw [hplace]
    exact ⟨Nat.dvd_mul_right 8 j, by omega, hchange⟩
  · rintro ⟨⟨j, hplace⟩, hin, hchange⟩
    rw [hplace] at hchange
    exact ⟨j, by omega, hplace, hchange⟩

/-! ### The obligations of reset, the run and the report -/

/-- Settles O1: reset is the start state with the image stored from address 0 in a blank memory. -/
theorem resetLoadsImageAndFixesEverythingElse :
    Obligations.ResetLoadsImageAndFixesEverythingElse := by
  refine ⟨fun size image hpos hsize hfits => ?_, fun _ _ => resetWith_eq_none_of_lt, rfl⟩
  refine ⟨_, resetWith_eq_some hpos hsize hfits, storeBytes_size .., fun k hk => ?_, fun k hk => ?_,
    fun r hr => reset_readReg hr, rfl, rfl, rfl, rfl, rfl, rfl⟩
  · have hbyte := byteAt_storeBytes_inside (wf_blank ⟨hpos, hsize⟩) (k := 0)
      (by rwa [Nat.zero_add]) hk
    rwa [Nat.zero_add] at hbyte
  · exact byteAt_storeBytes_outside _ _ (.inr (by rwa [Nat.zero_add]))

/-- Settles O2: reset keeps the canonical form, and its codes are `ZF` alone. -/
theorem everyResetStateMeetsInv : Obligations.EveryResetStateMeetsInv := by
  refine ⟨⟨reset_mem_wf, nofun⟩, fun size image s h => ⟨wf_resetWith h, ?_⟩⟩
  rw [resetWith_cc h]
  nofun

/-- Settles O45: where the loop ends the run is its start, else it begins with a step; the bounds by
induction along the run. -/
theorem runCountsStepsAgainstLimit : Obligations.RunCountsStepsAgainstLimit := by
  intro n s hsn
  refine ⟨fun hend => run_of_loop_end (hend.imp_right fun h => Nat.le_of_eq h.symm), fun hs hn => ?_,
    steps_le_run_steps n s, run_steps_le s hsn, fun hok => ?_⟩
  · obtain ⟨t, h⟩ := step_answers_next hs
    exact ⟨t, h, step_steps h, run_of_step hn h⟩
  · have hlimit := (run_ends n s).resolve_left (not_not.mpr hok)
    exact Nat.le_antisymm (run_steps_le s hsn) hlimit

/-- Settles O46: by induction along the run to the smaller limit. -/
theorem runCanBeContinued : Obligations.RunCanBeContinued :=
  ⟨fun _ _ s hmn => run_run hmn s, fun n _ hs => run_of_stopped hs n⟩

/-- Settles O47: each line of the lists is a place that was gone through, with its two values, where they
differ. -/
theorem reportListsExactlyTheChanges : Obligations.ReportListsExactlyTheChanges := by
  intro s0 s _
  obtain ⟨hZF, hSF, hOF⟩ := pack_getLsbD s.cc
  refine ⟨rfl, rfl, hZF, hSF, hOF, fun c => mem_report_registers, fun c => ?_⟩
  rw [mem_report_words, eq_wordAt_iff, eq_wordAt_iff]
  rfl

end Sys2Proof.Proofs
